-- ==== Sys2Proof/Word.lean ====
section
/-! DEFINITION. The word types of the block and their plainest readings (spec 00_scope.md R10 to R12). -/

namespace Sys2Proof

/-- A register, a command word, a host offset or a host byte address: 32 bits (R10). -/
abbrev Word := BitVec 32

/-- One byte of a memory space (R13). -/
abbrev Byte := BitVec 8

/-- A frame dimension: the 16 stored bits of WIDTH or HEIGHT (R37). -/
abbrev Dim := BitVec 16

/-- A symbol, 0 to 3: one entry of SYM (R52). -/
abbrev Sym := BitVec 2

/-- `u32(v) = v mod 2^32` of a natural number (R12). -/
abbrev u32 (v : Nat) : Word := BitVec.ofNat 32 v

/-- `s32`: the signed 32-bit two's-complement reading (R12). -/
abbrev s32 (v : Word) : Int := v.toInt

end Sys2Proof
end

