-- ==== Sys2Proof/Syntax.lean ====
section
/-! DEFINITION. The command set (spec 30_encoding.md R110 to R114): the fields of format C, and the commands. -/

namespace Sys2Proof

/-- The three fields of the one command format, C (R111), as they stand in a word. -/
structure FormatC where
  /-- OP, bits 7:0. -/
  op : BitVec 8
  /-- O, bit 8. -/
  o : Bool
  /-- RSV, bits 31:9. -/
  rsv : BitVec 23
  deriving DecidableEq, Repr

/-- The symbol order of a pack, field O (R114). -/
inductive Order where
  /-- O = 0: the first symbol is the most significant (the source's order). -/
  | msFirst
  /-- O = 1: the first symbol is the least significant (the spec's extension). -/
  | lsFirst
  deriving DecidableEq, Repr

/-- The defined commands (R113), one constructor per row of spec/opcode_table.json.
A command has no immediate field (R112): its operands are ARG0 and ARG1 as latched at issue. -/
inductive Instr where
  /-- NOP (44_control.md R220). -/
  | nop
  /-- CONVERT (40_csc.md R140). -/
  | convert
  /-- CLASSIFY (41_classifier.md R160). -/
  | classify
  /-- SCAN (42_grid_scanner.md R180). -/
  | scan
  /-- PACKB, PACKB.LS (43_bitpacker.md R200). -/
  | packb (o : Order)
  /-- PACKI, PACKI.LS (43_bitpacker.md R204). -/
  | packi (o : Order)
  deriving DecidableEq, Repr

end Sys2Proof
end

