-- ==== Sys2Proof/WellFormed.lean ====
section
/-! DEFINITION. Which fields of format C make a defined command (spec 30_encoding.md R115).
`Instr` is typed so that every term of it is a command; what can be ill formed is a word's fields. -/

namespace Sys2Proof

/-- RSV must be 0 (R111). -/
def FormatC.rsvOk (f : FormatC) : Bool := f.rsv == 0

/-- OP must be one of the six opcodes 0x00 to 0x05 (R113). -/
def FormatC.opOk (f : FormatC) : Bool := decide (f.op.toNat < 6)

/-- O may be 1 only with PACKB and PACKI (R111, R115). -/
def FormatC.orderOk (f : FormatC) : Bool := !f.o || f.op == 0x04 || f.op == 0x05

/-- The fields of a defined command word: none of R115's three grounds holds. -/
def FormatC.wellFormed (f : FormatC) : Bool := f.rsvOk && f.opOk && f.orderOk

/-- The OP field of a command (R113). -/
def Instr.op : Instr → BitVec 8
  | .nop => 0x00
  | .convert => 0x01
  | .classify => 0x02
  | .scan => 0x03
  | .packb _ => 0x04
  | .packi _ => 0x05

/-- The O field of a command (R113, R114). -/
def Instr.orderBit : Instr → Bool
  | .nop | .convert | .classify | .scan => false
  | .packb o | .packi o => o == .lsFirst

/-- The fields of a command's word. -/
def Instr.fields (i : Instr) : FormatC := { op := i.op, o := i.orderBit, rsv := 0 }

/-- A command is well formed when its fields are; every command is (Laws/PerInstr.lean). -/
def Instr.wellFormed (i : Instr) : Bool := i.fields.wellFormed

end Sys2Proof
end

