-- ==== Sys2Proof/Decode.lean ====
section
/-! DEFINITION. Decoding a command word (spec 30_encoding.md R116), total on all 32-bit words, and the encoder (R111, R113). -/

namespace Sys2Proof

/-- Why a word is reserved: the three grounds of R115, in the order R116 tests them. -/
inductive Reserved where
  /-- RSV ≠ 0. -/
  | rsvNonzero
  /-- O = 1 with an OP other than PACKB and PACKI. -/
  | orderNotAllowed
  /-- OP ≥ 0x06. -/
  | opUndefined
  deriving DecidableEq, Repr

/-- The fields of a word (R111): OP = w[7:0], O = w[8], RSV = w[31:9]. -/
def fieldsOf (w : Word) : FormatC :=
  { op := w.extractLsb' 0 8, o := w.getLsbD 8, rsv := w.extractLsb' 9 23 }

/-- The order that a value of field O selects (R114). -/
def orderOf (o : Bool) : Order := if o then .lsFirst else .msFirst

/-- `decode` of R116 on a word's fields; a `BAD` result carries its ground. -/
def decodeFields (f : FormatC) : Except Reserved Instr :=
  if f.rsv ≠ 0 then .error .rsvNonzero
  else if f.op = 0x04 then .ok (.packb (orderOf f.o))
  else if f.op = 0x05 then .ok (.packi (orderOf f.o))
  else if f.o then .error .orderNotAllowed
  else if f.op = 0x00 then .ok .nop
  else if f.op = 0x01 then .ok .convert
  else if f.op = 0x02 then .ok .classify
  else if f.op = 0x03 then .ok .scan
  else .error .opUndefined

/-- `decode` of R116. -/
def decode (w : Word) : Except Reserved Instr := decodeFields (fieldsOf w)

/-- The word that holds the given fields (R111: RSV, O, OP from bit 31 down). -/
def wordOf (f : FormatC) : Word := f.rsv ++ BitVec.ofBool f.o ++ f.op

/-- The command word of a command (R113). -/
def encode (i : Instr) : Word := wordOf i.fields

/-- The command that the decoder reads from the opcode table's bits: a command word is one 32-bit
word written to CMD (R110), so bit k of the table's number is bit k of that word. -/
def decodeTableWord (nbits w : Nat) : Option Instr :=
  match decode (BitVec.ofNat 32 (w % 2 ^ nbits)) with
  | .ok i => some i
  | .error _ => none

end Sys2Proof
end

