-- ==== Sys2Proof/Config.lean ====
section
/-! DEFINITION. What an implementation fixes (spec 00_scope.md R9) and the free values (93_implementation_defined.md, part 1). -/

namespace Sys2Proof

/-- The four memory spaces (20_memory.md R82). -/
inductive Space where
  | frame | pix | sym | out
  deriving DecidableEq, Repr

/-- The implementation parameters of R9, OPEN in the spec (D9, D10). -/
structure Params where
  /-- FRAME_DEPTH: bytes of FRAME. -/
  frameDepth : Nat
  /-- PIX_CAP: pixels PIX holds; PIX has `3 * pixCap` bytes. -/
  pixCap : Nat
  /-- SYM_DEPTH: symbols SYM holds. -/
  symDepth : Nat
  /-- CSC_G_BINARY64 (40_csc.md R143). -/
  cscGBinary64 : Bool
  deriving DecidableEq, Repr

/-- OUT_DEPTH = SYM_DEPTH / 4 (R9; "not free"). -/
def Params.outDepth (p : Params) : Nat := p.symDepth / 4

/-- The constraints R9 puts on the parameters. -/
abbrev Params.Legal (p : Params) : Prop :=
  6 ≤ p.frameDepth ∧ p.frameDepth ≤ 2 ^ 32 ∧
  4 ≤ p.pixCap ∧ 3 * p.pixCap ≤ 2 ^ 32 ∧
  16 ≤ p.symDepth ∧ p.symDepth ≤ 2 ^ 32 - 4 ∧ p.symDepth % 4 = 0

/-- How many byte addresses a space has (20_memory.md R82). -/
def Params.extent (p : Params) : Space → Nat
  | .frame => p.frameDepth
  | .pix => 3 * p.pixCap
  | .sym => p.symDepth
  | .out => p.outDepth

/-- The parameter values `State.reset` carries.
DESIGN CHOICE (notes/assumptions/3.md): the sizes the spec's own test vectors name
(95_test_vectors.md CV8, SC8, NC9); CSC_G_BINARY64 is the spec's default (R9). -/
def Params.atReset : Params :=
  { frameDepth := 98304, pixCap := 65536, symDepth := 4096, cscGBinary64 := false }

namespace Config

/-- FREE VALUE: the byte that the draw number `draw` gives at address `a` of space `sp`
(R83, R90, R99, R292, R293; notes/assumptions/5.md). It has no body: nothing constrains it. -/
opaque freeByte (draw : Nat) (sp : Space) (a : Nat) : Byte

/-- AME_BASE: where the platform places the block's spaces (R92, OPEN). No rule of the block reads it. -/
opaque ameBase : Nat

/-- AME_IRQ_LINE: how the platform routes `irq` (R273, OPEN). No rule of the block reads it. -/
opaque ameIrqLine : Nat

end Config
end Sys2Proof
end

