-- ==== Sys2Proof/Machine/State.lean ====
section
/-! DEFINITION. The state of the block (spec 10_state.md) and its value after reset (R33, R57, R290). -/

namespace Sys2Proof.Machine

/-- The outcome codes of ERRCODE (R36). Codes 7 to 15 are never produced, and cannot be written here. -/
inductive ErrCode where
  | none | outOfBounds | badDimensions | badRange | badLength | noFrame | badCommand
  deriving DecidableEq, Repr

/-- The registers of R33 that a word offset names. -/
inductive Reg where
  | ctrl | status | width | height | arg0 | arg1 | cmd | result | bsum | symcount | outcount
  | gridw | gridh | cells | capacity | symdepth | framedepth | pixcap
  deriving DecidableEq, Repr

/-- The host's four operations (20_memory.md R80). Offsets and addresses are 32-bit unsigned (R10). -/
inductive HostOp where
  /-- `RegRead(off)`. -/
  | regRead (off : Word)
  /-- `RegWrite(off, v)`. -/
  | regWrite (off v : Word)
  /-- `MemRead(sp, a, 1)`. -/
  | memRead (sp : Space) (a : Word)
  /-- `MemWrite(sp, a, 1, b)`. -/
  | memWrite (sp : Space) (a : Word) (b : Byte)
  deriving DecidableEq, Repr

/-- What can happen next at the block, between whole operations (R80):
one host operation, the engine's turn, or the power-on reset input `rst` (R290).
DESIGN CHOICE (notes/assumptions/1.md): who moves next is data of the state. -/
inductive Event where
  | host (op : HostOp)
  | engine
  | powerOn
  deriving DecidableEq, Repr

/-- What a host read returned (R80). -/
inductive Reply where
  | word (v : Word)
  | byte (b : Byte)
  deriving DecidableEq, Repr

/-- The in-flight latch CUR (R55): the command word and ARG0, ARG1 at issue. -/
structure Latch where
  word : Word
  a0 : Word
  a1 : Word
  deriving DecidableEq, Repr

/-- The contents of one memory space: the bytes written since they were last unspecified, addresses
strictly rising, and the number of the draw that every other byte holds (R99, R292, R293). -/
structure Mem where
  cells : List Host.Cell
  /-- The MODEL's own (notes/assumptions/5.md). -/
  epoch : Nat
  deriving DecidableEq, Repr

/-- The canonical form: addresses strictly rising. An unlisted address holds no value of its own, so
no entry can repeat it (notes/assumptions/6.md). -/
abbrev Mem.wf (m : Mem) : Prop := (m.cells.map Prod.fst).Pairwise (· < ·)

/-- Everything the spec gives the block (R57), the constants of R47, and the model's own fields. -/
structure State where
  /-- The implementation parameters; SYMDEPTH, FRAMEDEPTH and PIXCAP read them (R47). Constant. -/
  params : Params
  /-- CTRL.IE (R34). -/
  ie : Bool
  /-- STATUS.BUSY (R35). -/
  busy : Bool
  /-- STATUS.DONE (R35). -/
  done : Bool
  /-- STATUS.ERR (R35). -/
  err : Bool
  /-- STATUS.LOST (R35). -/
  lost : Bool
  /-- STATUS.PV (R35, R54). -/
  pv : Bool
  /-- STATUS.ERRCODE (R36). -/
  errcode : ErrCode
  /-- WIDTH[15:0] (R37). -/
  width : Dim
  /-- HEIGHT[15:0] (R37). -/
  height : Dim
  /-- ARG0 (R39). -/
  arg0 : Word
  /-- ARG1 (R39). -/
  arg1 : Word
  /-- RESULT (R41). -/
  result : Word
  /-- BSUM (R42). -/
  bsum : Word
  /-- SYMCOUNT (R43). -/
  symcount : Word
  /-- OUTCOUNT (R44). -/
  outcount : Word
  /-- CUR (R55). -/
  cur : Latch
  /-- FRAME (R50). -/
  frame : Mem
  /-- PIX (R51). -/
  pix : Mem
  /-- SYM (R52). -/
  sym : Mem
  /-- OUT (R53). -/
  out : Mem
  /-- The coming events, oldest first. The MODEL's own (notes/assumptions/1.md). -/
  events : List Event
  /-- What host reads have returned, newest first. The MODEL's own (notes/assumptions/9.md). -/
  replies : List Reply
  /-- The number of the next draw. The MODEL's own (notes/assumptions/5.md). -/
  draws : Nat
  deriving DecidableEq, Repr

/-- Why the machine could stop. The block never does: every error of the spec is a completion with a
code after which the block is idle and accepts the next command (R274). So there is no constructor
(notes/assumptions/10.md). -/
inductive Fault where
  deriving DecidableEq, Repr

/-- Why a command could have no meaning. -/
inductive Refusal where
  /-- Raised by an arm of `exec` whose command has no meaning yet; safe (the run stops). No arm raises it. -/
  | notModelled (mnemonic : String)
  deriving DecidableEq, Repr

/-- CUR after a reset. DESIGN CHOICE (notes/assumptions/8.md): the spec leaves it undefined and unread (R57). -/
def Latch.atReset : Latch := { word := 0, a0 := 0, a1 := 0 }

/-- A memory in which every byte holds draw `k` (R292). -/
def Mem.unspecified (k : Nat) : Mem := { cells := [], epoch := k }

/-- The block right after the power-on reset (R33, R57, R290, R292). -/
def State.reset : State where
  params := Params.atReset
  ie := false
  busy := false
  done := false
  err := false
  lost := false
  pv := false
  errcode := .none
  width := 0
  height := 0
  arg0 := 0
  arg1 := 0
  result := 0
  bsum := 0
  symcount := 0
  outcount := 0
  cur := Latch.atReset
  frame := Mem.unspecified 0
  pix := Mem.unspecified 0
  sym := Mem.unspecified 0
  out := Mem.unspecified 0
  events := []
  replies := []
  draws := 1

end Sys2Proof.Machine
end

