-- ==== Sys2Proof/Machine/Flags.lean ====
section
/-! DEFINITION. The status flags (spec 10_state.md R34 to R36, R58), the words CTRL and STATUS, and the interrupt output (60_exceptions.md R272). -/

namespace Sys2Proof.Machine

/-- The number of an outcome code (R36). -/
def ErrCode.code : ErrCode → BitVec 4
  | .none => 0
  | .outOfBounds => 1
  | .badDimensions => 2
  | .badRange => 3
  | .badLength => 4
  | .noFrame => 5
  | .badCommand => 6

/-- CTRL as it reads: IE in bit 1, every other bit 0 (R34). -/
def ctrlWord (s : State) : Word := 0#30 ++ BitVec.ofBool s.ie ++ 0#1

/-- STATUS as it reads (R35): ERRCODE in bits 11:8, PV, LOST, ERR, DONE, BUSY in bits 4 to 0. -/
def statusWord (s : State) : Word :=
  0#20 ++ s.errcode.code ++ 0#3 ++ BitVec.ofBool s.pv ++ BitVec.ofBool s.lost ++
    BitVec.ofBool s.err ++ BitVec.ofBool s.done ++ BitVec.ofBool s.busy

/-- The level output `irq = CTRL.IE ∧ STATUS.DONE` (R272). -/
def irq (s : State) : Bool := s.ie && s.done

/-- A completion with success: the four status fields R222 writes, ERR left alone. -/
def succeed (s : State) : State := { s with busy := false, done := true, errcode := .none }

/-- TAKING AN ERROR, the one shared entry of R274: exactly ERR, ERRCODE, DONE and BUSY are written. -/
def takeError (e : ErrCode) (s : State) : State :=
  { s with busy := false, done := true, err := true, errcode := e }

/-- The return from an error, and every other STATUS write (R224, R275): bits 1, 2 and 3 of `v`
clear DONE, ERR and LOST; nothing else of STATUS can be written. -/
def clearStatus (v : Word) (s : State) : State :=
  { s with
    done := s.done && !v.getLsbD 1
    err := s.err && !v.getLsbD 2
    lost := s.lost && !v.getLsbD 3 }

/-- A host write discarded because BUSY = 1 (R89). -/
def loseWrite (s : State) : State := { s with lost := true }

end Sys2Proof.Machine
end

