-- ==== Sys2Proof/Machine/Ops.lean ====
section
/-! DEFINITION. The named operations on memory (spec 20_memory.md, 10_state.md section 5) and on the whole state: issue (R221) and the two resets (R290 to R293). Taking an error and the return from it stand in Flags.lean. -/

namespace Sys2Proof.Machine

/-- The byte listed at address `a`, if any. -/
def cellAt : List Host.Cell → Nat → Option Byte
  | [], _ => none
  | (k, b) :: rest, a => if k = a then some b else cellAt rest a

/-- Write one byte, keeping addresses strictly rising. -/
def putCell : List Host.Cell → Nat → Byte → List Host.Cell
  | [], a, b => [(a, b)]
  | (k, c) :: rest, a, b =>
    if a < k then (a, b) :: (k, c) :: rest
    else if a = k then (a, b) :: rest
    else (k, c) :: putCell rest a b

/-- A byte as a space holds it: SYM entries are 2 bits wide (R52). -/
def narrow : Space → Byte → Byte
  | .sym, b => b &&& 0x03
  | .frame, b | .pix, b | .out, b => b

/-- What address `a` holds when nothing has written it: a draw, fixed until it is written (R99, R292). -/
def Mem.unlisted (m : Mem) (sp : Space) (a : Nat) : Byte := Config.freeByte m.epoch sp a

/-- What address `a` of space `sp` holds. -/
def Mem.byteAt (m : Mem) (sp : Space) (a : Nat) : Byte :=
  narrow sp ((cellAt m.cells a).getD (m.unlisted sp a))

/-- Store one byte (R82; for SYM bits 1:0 only, R52). -/
def Mem.put (m : Mem) (sp : Space) (a : Nat) (b : Byte) : Mem :=
  { m with cells := putCell m.cells a (narrow sp b) }

/-- Store byte `f a` at every address `a < n`: how CONVERT, SCAN and PACKB write their space at completion. -/
def Mem.fill (m : Mem) (n : Nat) (f : Nat → Byte) : Mem :=
  { m with cells := (List.range n).map (fun a => (a, f a)) ++ m.cells.filter (fun c => n ≤ c.1) }

/-- The contents of a space. -/
def State.mem (s : State) : Space → Mem
  | .frame => s.frame
  | .pix => s.pix
  | .sym => s.sym
  | .out => s.out

/-- Replace the contents of a space. -/
def State.setMem (s : State) (sp : Space) (m : Mem) : State :=
  match sp with
  | .frame => { s with frame := m }
  | .pix => { s with pix := m }
  | .sym => { s with sym := m }
  | .out => { s with out := m }

/-- What address `a` of space `sp` holds in `s`: the model's read of one byte. -/
def peek (s : State) (sp : Space) (a : Nat) : Byte := (s.mem sp).byteAt sp a

/-- A new draw for a read of `sp` at `a` (R83, R90); the draw is used up. -/
def drawByte (sp : Space) (a : Nat) (s : State) : Byte × State :=
  (Config.freeByte s.draws sp a, { s with draws := s.draws + 1 })

/-- Every byte of space `sp` becomes unspecified: a new draw, fixed until it is written (R293). -/
def forget (sp : Space) (s : State) : State :=
  { s.setMem sp (Mem.unspecified s.draws) with draws := s.draws + 1 }

/-- The space a command word's command writes (R90, R91): PIX for CONVERT, SYM for SCAN, OUT for PACKB.
DEDUCED (notes/assumptions/7.md): the opcode alone decides, whether or not the command would fail. -/
def writtenSpace (w : Word) : Option Space :=
  match decode w with
  | .ok .convert => some .pix
  | .ok .scan => some .sym
  | .ok (.packb _) => some .out
  | .ok .nop | .ok .classify | .ok (.packi _) | .error _ => none

/-- The space the running command writes, while one runs. -/
def busySpace (s : State) : Option Space := if s.busy then writtenSpace s.cur.word else none

/-- The accepted issue of command word `w` (R221): latch, DONE and ERRCODE cleared, BUSY set. -/
def issue (w : Word) (s : State) : State :=
  { s with
    cur := { word := w, a0 := s.arg0, a1 := s.arg1 }
    done := false
    errcode := .none
    busy := true }

/-- Every register takes its reset value (R33, R290). -/
def resetRegisters (s : State) : State :=
  { s with
    ie := false, busy := false, done := false, err := false, lost := false, pv := false
    errcode := .none, width := 0, height := 0, arg0 := 0, arg1 := 0, result := 0, bsum := 0
    symcount := 0, outcount := 0, cur := Latch.atReset }

/-- The soft reset (R290, R292, R293): registers reset; memories kept, but for the destination of a
command that was running, which becomes unspecified. -/
def softReset (s : State) : State :=
  match busySpace s with
  | some sp => resetRegisters (forget sp s)
  | none => resetRegisters s

/-- The power-on reset (R290, R292): registers reset, every byte of the four memories unspecified. -/
def powerOnReset (s : State) : State :=
  { resetRegisters s with
    frame := Mem.unspecified s.draws
    pix := Mem.unspecified s.draws
    sym := Mem.unspecified s.draws
    out := Mem.unspecified s.draws
    draws := s.draws + 1 }

end Sys2Proof.Machine
end

