-- ==== Sys2Proof/Machine/Operands.lean ====
section
/-! DEFINITION. The operands of the commands (spec 30_encoding.md R112) and the derived registers (10_state.md R45, R46). -/

namespace Sys2Proof.Machine

/-- An RGB triple of 8-bit unsigned values. -/
structure RGB where
  r : Byte
  g : Byte
  b : Byte
  deriving DecidableEq, Repr

/-- Operand a0, an unsigned number: bound checks do not wrap (R112). -/
def operand0 (s : State) : Nat := s.cur.a0.toNat

/-- Operand a1, an unsigned number (R112). -/
def operand1 (s : State) : Nat := s.cur.a1.toNat

/-- `W = WIDTH[15:0]` (R112). -/
def frameW (s : State) : Nat := s.width.toNat

/-- `H = HEIGHT[15:0]` (R112). -/
def frameH (s : State) : Nat := s.height.toNat

/-- GRIDW = WIDTH div 4 (R45). -/
def gridW (s : State) : Nat := frameW s / 4

/-- GRIDH = HEIGHT div 4 (R45). -/
def gridH (s : State) : Nat := frameH s / 4

/-- CELLS = GRIDW × GRIDH (R45). -/
def cellCount (s : State) : Nat := gridW s * gridH s

/-- `floor((CELLS − 64) / 4)`, negative below 64 cells (R46). -/
def capacityBytes (s : State) : Int := ((cellCount s : Int) - 64) / 4

/-- `SYM[k]`, 2 bits (R52). -/
def symAt (s : State) (k : Nat) : Sym := (peek s .sym k).setWidth 2

/-- A byte that holds a symbol: `zext(SYM[k])` (R52). -/
def symByte (x : Sym) : Byte := x.setWidth 8

/-- The symbols `SYM[off .. off+n−1]` (R200, R204). -/
def symRange (s : State) (off n : Nat) : List Sym := (List.range n).map (fun k => symAt s (off + k))

/-- `PIX[i][j]` under the current WIDTH, at the place R85 gives it. -/
def pixelAt (s : State) (i j : Nat) : RGB :=
  { r := peek s .pix (3 * (i * frameW s + j))
    g := peek s .pix (3 * (i * frameW s + j) + 1)
    b := peek s .pix (3 * (i * frameW s + j) + 2) }

/-- `window(r, c)`: the 16 pixels `PIX[r + a][c + b]`, a and b below 4 (R161). -/
def window (s : State) (r c : Nat) : List RGB :=
  (List.range 16).map (fun k => pixelAt s (r + k / 4) (c + k % 4))

end Sys2Proof.Machine
end

