-- ==== Sys2Proof/Machine/Control.lean ====
section
/-! DEFINITION. The control command (spec 44_control.md R220). -/

namespace Sys2Proof.Machine

/-- NOP (R220): `complete()`. -/
def execNop (s : State) : Host.Outcome State Fault Refusal := .next (succeed s)

end Sys2Proof.Machine
end

