-- ==== Sys2Proof/Machine/Csc.lean ====
section
/-! DEFINITION. ColorSpaceConverter: CONVERT (spec 40_csc.md). -/

namespace Sys2Proof.Machine

/-- The three samples of a pixel. -/
structure Yuv where
  y : Byte
  u : Byte
  v : Byte
  deriving DecidableEq, Repr

/-- `clamp(x) = min(255, max(0, x))` (R12), as the 8-bit value it is (R145). -/
def clampByte (x : Int) : Byte := BitVec.ofNat 8 (min 255 (max 0 x)).toNat

/-- Red (R142). `/` is floor division, the divisor being positive (R12). -/
def cscR (y v : Byte) : Byte :=
  clampByte ((400 * (y.toNat : Int) + 563 * ((v.toNat : Int) - 128)) / 400)

/-- Green in exact arithmetic (R143). -/
def cscGExact (y u v : Byte) : Byte :=
  clampByte ((10000 * (y.toNat : Int) - 3455 * ((u.toNat : Int) - 128) - 7169 * ((v.toNat : Int) - 128)) / 10000)

/-- Green (R143): `binary64` is the parameter CSC_G_BINARY64. -/
def cscG (binary64 : Bool) (y u v : Byte) : Byte :=
  if binary64 ∧ u.toNat = 30 ∧ v.toNat = 238 ∧ 95 ≤ y.toNat ∧ y.toNat ≤ 173 then cscGExact y u v - 1
  else cscGExact y u v

/-- Blue (R144). -/
def cscB (y u : Byte) : Byte :=
  clampByte ((1000 * (y.toNat : Int) + 1779 * ((u.toNat : Int) - 128)) / 1000)

/-- The conversion of one pixel's samples (R140). -/
def convertYuv (binary64 : Bool) (p : Yuv) : RGB :=
  { r := cscR p.y p.v, g := cscG binary64 p.y p.u p.v, b := cscB p.y p.u }

/-- FRAME address of the luma sample of pixel (i, j) (R84, R141). -/
def lumaAddr (W i j : Nat) : Nat := i * W + j

/-- FRAME address of the U sample of pixel (i, j) (R84, R141). -/
def chromaUAddr (W H i j : Nat) : Nat := W * H + (i / 2) * (W / 2) + j / 2

/-- FRAME address of the V sample of pixel (i, j) (R84, R141). -/
def chromaVAddr (W H i j : Nat) : Nat := W * H + W * H / 4 + (i / 2) * (W / 2) + j / 2

/-- `samples(i, j)` (R141). -/
def samples (s : State) (i j : Nat) : Yuv :=
  { y := peek s .frame (lumaAddr (frameW s) i j)
    u := peek s .frame (chromaUAddr (frameW s) (frameH s) i j)
    v := peek s .frame (chromaVAddr (frameW s) (frameH s) i j) }

/-- `legal_dims(W, H)` (R146). -/
abbrev LegalDims (p : Params) (W H : Nat) : Prop :=
  2 ≤ W ∧ 2 ≤ H ∧ W % 2 = 0 ∧ H % 2 = 0 ∧ W * H ≤ p.pixCap ∧ 3 * (W * H) / 2 ≤ p.frameDepth

/-- The RGB triple CONVERT writes for pixel (i, j) (R140). -/
def convertedPixel (s : State) (i j : Nat) : RGB := convertYuv s.params.cscGBinary64 (samples s i j)

/-- The byte CONVERT writes at PIX address `a`: channel `a mod 3` of pixel number `a div 3`, in row-major order (R85). -/
def convertedByte (s : State) (a : Nat) : Byte :=
  let px := convertedPixel s (a / 3 / frameW s) (a / 3 % frameW s)
  match a % 3 with
  | 0 => px.r
  | 1 => px.g
  | _ => px.b

/-- CONVERT (R140, R146, R147). -/
def execConvert (s : State) : Host.Outcome State Fault Refusal :=
  if LegalDims s.params (frameW s) (frameH s) then
    .next (succeed { s with pix := s.pix.fill (3 * (frameW s * frameH s)) (convertedByte s), pv := true })
  else .next (takeError .badDimensions s)

end Sys2Proof.Machine
end

