-- ==== Sys2Proof/Machine/Packer.lean ====
section
/-! DEFINITION. BitPacker: PACKB and PACKI in both symbol orders (spec 43_bitpacker.md). -/

namespace Sys2Proof.Machine

/-- `pack_byte` (R201, R202): four symbols in one byte, the first most or least significant. -/
def packByte (o : Order) (s0 s1 s2 s3 : Sym) : Byte :=
  match o with
  | .msFirst => s0 ++ s1 ++ s2 ++ s3
  | .lsFirst => s3 ++ s2 ++ s1 ++ s0

/-- The byte of chunk m: symbols 4m to 4m + 3 of the range at `off` (R200, R201). -/
def packedByte (o : Order) (s : State) (off m : Nat) : Byte :=
  packByte o (symAt s (off + 4 * m)) (symAt s (off + 4 * m + 1)) (symAt s (off + 4 * m + 2)) (symAt s (off + 4 * m + 3))

/-- The sum of the first `n` values `f 0, …, f (n − 1)`. -/
def sumUpTo (n : Nat) (f : Nat → Nat) : Nat := ((List.range n).map f).sum

/-- PACKB in order `o` (R200, R203, R207), the shared operation of both words of the row. -/
def packBytes (o : Order) (s : State) : State :=
  if operand1 s % 4 ≠ 0 then takeError .badLength s
  else if s.symcount.toNat < operand0 s + operand1 s then takeError .badRange s
  else succeed { s with
    out := s.out.fill (operand1 s / 4) (packedByte o s (operand0 s))
    outcount := u32 (operand1 s / 4)
    bsum := u32 (sumUpTo (operand1 s / 4) (fun m => (packedByte o s (operand0 s) m).toNat)) }

/-- The integer of `n` symbols before its reduction to 32 bits (R205, R206). -/
def packedInt (o : Order) (n : Nat) (x : Nat → Sym) : Nat :=
  match o with
  | .msFirst => sumUpTo n (fun k => (x k).toNat * 4 ^ (n - 1 - k))
  | .lsFirst => sumUpTo n (fun k => (x k).toNat * 4 ^ k)

/-- PACKI in order `o` (R204, R207), the shared operation of both words of the row. -/
def packInteger (o : Order) (s : State) : State :=
  if s.symcount.toNat < operand0 s + operand1 s then takeError .badRange s
  else succeed { s with
    result := u32 (packedInt o (operand1 s) (fun k => symAt s (operand0 s + k))) }

/-- PACKB, PACKB.LS (R200). -/
def execPackb (o : Order) (s : State) : Host.Outcome State Fault Refusal := .next (packBytes o s)

/-- PACKI, PACKI.LS (R204). -/
def execPacki (o : Order) (s : State) : Host.Outcome State Fault Refusal := .next (packInteger o s)

end Sys2Proof.Machine
end

