-- ==== Sys2Proof/Machine/Classifier.lean ====
section
/-! DEFINITION. CellClassifier: the unit function and CLASSIFY (spec 41_classifier.md; REFC is 10_state.md R49). -/

namespace Sys2Proof.Machine

/-- REFC, the reference colours in symbol order (R49): black, purple, yellow, white. -/
def refTable : Vector RGB 4 := #v[⟨0, 0, 0⟩, ⟨128, 0, 128⟩, ⟨255, 255, 0⟩, ⟨255, 255, 255⟩]

/-- REFC[k]. -/
def refc (k : Sym) : RGB := refTable.get k.toFin

/-- The binary digits of a square root, from digit `d − 1` down, on top of `r`. -/
def isqrtFrom : (d n r : Nat) → Nat
  | 0, _, r => r
  | d + 1, n, r =>
    if (r + 2 ^ d) * (r + 2 ^ d) ≤ n then isqrtFrom d n (r + 2 ^ d) else isqrtFrom d n r

/-- `isqrt(n)`: the largest r with r² ≤ n (R12). -/
def isqrt (n : Nat) : Nat := isqrtFrom (n.log2 / 2 + 1) n 0

/-- The squared Euclidean RGB distance (R162). -/
def sqDist (p q : RGB) : Nat :=
  let dr : Int := (p.r.toNat : Int) - (q.r.toNat : Int)
  let dg : Int := (p.g.toNat : Int) - (q.g.toNat : Int)
  let db : Int := (p.b.toNat : Int) - (q.b.toNat : Int)
  (dr * dr + dg * dg + db * db).toNat

/-- `score(p, q)`: the distance truncated to an integer (R162). -/
def score (p q : RGB) : Nat := isqrt (sqDist p q)

/-- How many of a candidate's 16 scores are kept: `floor(16 × 0.9)`, the constant 14 (R8, R163). -/
def keptScores : Nat := 14

/-- `trimmed(k)` against the colour `q`: the scores sorted ascending, the lowest 14 summed (R163). -/
def trimmedSum (px : List RGB) (q : RGB) : Nat :=
  (((px.map (fun p => score p q)).insertionSort (· ≤ ·)).take keptScores).sum

/-- The trimmed sums of the four candidates. -/
structure Sums where
  black : Nat
  purple : Nat
  yellow : Nat
  white : Nat
  deriving DecidableEq, Repr

/-- `trimmed(k)`. -/
def Sums.at (t : Sums) (k : Sym) : Nat :=
  match k.toNat with
  | 0 => t.black
  | 1 => t.purple
  | 2 => t.yellow
  | _ => t.white

/-- The four trimmed sums of a window (R163). -/
def trimmedSums (px : List RGB) : Sums :=
  { black := trimmedSum px (refc 0), purple := trimmedSum px (refc 1)
    yellow := trimmedSum px (refc 2), white := trimmedSum px (refc 3) }

/-- The selection loop of R164: a strict comparison, so a tie keeps the earlier symbol. -/
def selectSymbol (t : Sums) : Sym :=
  [(1 : Sym), 2, 3].foldl (fun best k => if t.at k < t.at best then k else best) 0

/-- The unit function `classify(px)` (R165): the symbol and the trimmed sums. -/
def classify (px : List RGB) : Sym × Sums := (selectSymbol (trimmedSums px), trimmedSums px)

/-- CLASSIFY (R160, R166). -/
def execClassify (s : State) : Host.Outcome State Fault Refusal :=
  if s.pv = false then .next (takeError .noFrame s)
  else if frameH s < operand0 s + 4 ∨ frameW s < operand1 s + 4 then .next (takeError .outOfBounds s)
  else .next (succeed { s with result := (classify (window s (operand0 s) (operand1 s))).1.setWidth 32 })

end Sys2Proof.Machine
end

