-- ==== Sys2Proof/Machine/Scanner.lean ====
section
/-! DEFINITION. GridScanner: SCAN (spec 42_grid_scanner.md). -/

namespace Sys2Proof.Machine

/-- Grid row of a symbol index: `idx div GRIDW` (R181). -/
def cellRow (s : State) (idx : Nat) : Nat := idx / gridW s

/-- Grid column of a symbol index: `idx mod GRIDW` (R181). -/
def cellCol (s : State) (idx : Nat) : Nat := idx % gridW s

/-- The symbol of the cell with index `idx`: its window has its origin at (4·row, 4·col) (R180, R182). -/
def cellSymbol (s : State) (idx : Nat) : Sym :=
  (classify (window s (4 * cellRow s idx) (4 * cellCol s idx))).1

/-- SCAN (R180), its checks in the order of R183. -/
def execScan (s : State) : Host.Outcome State Fault Refusal :=
  if s.pv = false then .next (takeError .noFrame s)
  else if operand1 s < operand0 s then .next (takeError .badRange s)
  else if s.params.symDepth < operand1 s - operand0 s then .next (takeError .badRange s)
  else if 0 < operand1 s - operand0 s ∧ cellCount s < operand1 s then .next (takeError .outOfBounds s)
  else .next (succeed { s with
    sym := s.sym.fill (operand1 s - operand0 s) (fun k => symByte (cellSymbol s (operand0 s + k)))
    symcount := u32 (operand1 s - operand0 s) })

end Sys2Proof.Machine
end

