-- ==== Sys2Proof/Machine/Dispatch.lean ====
section
/-! DEFINITION. The meaning of each command: its completion with the operands of CUR (spec 44_control.md R222). -/

namespace Sys2Proof.Machine

/-- `run(d, a0, a1)` of R222 together with the completion's status writes. -/
def exec (i : Instr) (s : State) : Host.Outcome State Fault Refusal :=
  match i with
  | .nop => Sys2Proof.Machine.execNop s
  | .convert => Sys2Proof.Machine.execConvert s
  | .classify => Sys2Proof.Machine.execClassify s
  | .scan => Sys2Proof.Machine.execScan s
  | .packb o => Sys2Proof.Machine.execPackb o s
  | .packi o => Sys2Proof.Machine.execPacki o s

end Sys2Proof.Machine
end

