-- ==== Sys2Proof/Machine/HostPort.lean ====
section
/-! DEFINITION. The host's register and memory accesses (spec 20_memory.md R80 to R90; 10_state.md R33 to R48; 44_control.md R221, R224, R225). -/

namespace Sys2Proof.Machine

/-- The word offset of a register (R33). -/
def Reg.offset : Reg → Word
  | .ctrl => 0x00
  | .status => 0x04
  | .width => 0x08
  | .height => 0x0C
  | .arg0 => 0x10
  | .arg1 => 0x14
  | .cmd => 0x18
  | .result => 0x1C
  | .bsum => 0x20
  | .symcount => 0x24
  | .outcount => 0x28
  | .gridw => 0x2C
  | .gridh => 0x30
  | .cells => 0x34
  | .capacity => 0x38
  | .symdepth => 0x3C
  | .framedepth => 0x40
  | .pixcap => 0x44

/-- The register at a byte offset (R33); none at a reserved or unaligned offset (R48, R81). -/
def regAt (off : Word) : Option Reg :=
  match off.toNat with
  | 0x00 => some .ctrl
  | 0x04 => some .status
  | 0x08 => some .width
  | 0x0C => some .height
  | 0x10 => some .arg0
  | 0x14 => some .arg1
  | 0x18 => some .cmd
  | 0x1C => some .result
  | 0x20 => some .bsum
  | 0x24 => some .symcount
  | 0x28 => some .outcount
  | 0x2C => some .gridw
  | 0x30 => some .gridh
  | 0x34 => some .cells
  | 0x38 => some .capacity
  | 0x3C => some .symdepth
  | 0x40 => some .framedepth
  | 0x44 => some .pixcap
  | _ => none

/-- What a register reads as (R34 to R47). -/
def readReg (s : State) : Reg → Word
  | .ctrl => ctrlWord s
  | .status => statusWord s
  | .width => s.width.setWidth 32
  | .height => s.height.setWidth 32
  | .arg0 => s.arg0
  | .arg1 => s.arg1
  | .cmd => 0
  | .result => s.result
  | .bsum => s.bsum
  | .symcount => s.symcount
  | .outcount => s.outcount
  | .gridw => u32 (gridW s)
  | .gridh => u32 (gridH s)
  | .cells => u32 (cellCount s)
  | .capacity => BitVec.ofInt 32 (capacityBytes s)
  | .symdepth => u32 s.params.symDepth
  | .framedepth => u32 s.params.frameDepth
  | .pixcap => u32 s.params.pixCap

/-- `RegRead(off)`: 0 at a reserved or unaligned offset (R48, R81). -/
def readRegister (s : State) (off : Word) : Word :=
  match regAt off with
  | some r => readReg s r
  | none => 0

/-- A CTRL write (R225): bit 0 set performs the soft reset, else IE takes bit 1. -/
def writeCtrl (v : Word) (s : State) : State :=
  if v.getLsbD 0 then softReset s else { s with ie := v.getLsbD 1 }

/-- A WIDTH write (R37, R38, R89). -/
def writeWidth (v : Word) (s : State) : State :=
  if s.busy then loseWrite s else { s with width := v.setWidth 16, pv := false }

/-- A HEIGHT write (R37, R38, R89). -/
def writeHeight (v : Word) (s : State) : State :=
  if s.busy then loseWrite s else { s with height := v.setWidth 16, pv := false }

/-- A CMD write (R40, R221): an issue, or a lost word while BUSY = 1. -/
def writeCmd (v : Word) (s : State) : State :=
  if s.busy then loseWrite s else issue v s

/-- A SYMCOUNT write (R43, R89): stores `min(v, SYM_DEPTH)`. -/
def writeSymcount (v : Word) (s : State) : State :=
  if s.busy then loseWrite s else { s with symcount := u32 (min v.toNat s.params.symDepth) }

/-- A write to a register of R33; read-only registers ignore it (R48). -/
def writeReg (r : Reg) (v : Word) (s : State) : State :=
  match r with
  | .ctrl => writeCtrl v s
  | .status => clearStatus v s
  | .width => writeWidth v s
  | .height => writeHeight v s
  | .arg0 => { s with arg0 := v }
  | .arg1 => { s with arg1 := v }
  | .cmd => writeCmd v s
  | .symcount => writeSymcount v s
  | .result | .bsum | .outcount | .gridw | .gridh | .cells | .capacity | .symdepth | .framedepth | .pixcap => s

/-- `RegWrite(off, v)`: ignored at a reserved or unaligned offset (R48, R81). -/
def writeRegister (off v : Word) (s : State) : State :=
  match regAt off with
  | some r => writeReg r v s
  | none => s

/-- A host read of address `a` of `sp` returns an unspecified byte: past the end (R83), or in the
space the running command writes (R90). -/
abbrev ReadIsUnspecified (s : State) (sp : Space) (a : Nat) : Prop :=
  s.params.extent sp ≤ a ∨ busySpace s = some sp

/-- `MemRead(sp, a, 1)`: the byte read, and the state after (only a draw is used up). -/
def loadByte (sp : Space) (a : Word) (s : State) : Byte × State :=
  if ReadIsUnspecified s sp a.toNat then drawByte sp a.toNat s
  else (peek s sp a.toNat, s)

/-- Whether the host may write a space (R82). -/
def hostWritable : Space → Bool
  | .frame | .sym => true
  | .pix | .out => false

/-- `MemWrite(sp, a, 1, b)`: ignored for a read-only space or past the end (R82, R83), lost while
BUSY = 1 (R89). -/
def storeByte (sp : Space) (a : Word) (b : Byte) (s : State) : State :=
  if hostWritable sp = false ∨ s.params.extent sp ≤ a.toNat then s
  else if s.busy then loseWrite s
  else s.setMem sp ((s.mem sp).put sp a.toNat b)

/-- Record what a host read returned. -/
def pushReply (r : Reply) (s : State) : State := { s with replies := r :: s.replies }

/-- One host operation (R80). -/
def hostAccess (op : HostOp) (s : State) : State :=
  match op with
  | .regRead off => pushReply (.word (readRegister s off)) s
  | .regWrite off v => writeRegister off v s
  | .memRead sp a => pushReply (.byte (loadByte sp a s).1) (loadByte sp a s).2
  | .memWrite sp a b => storeByte sp a b s

end Sys2Proof.Machine
end

