-- ==== Sys2Proof/Machine/Engine.lean ====
section
/-! DEFINITION. The command engine's completion step (spec 44_control.md R222, R223) and what each event does. -/

namespace Sys2Proof.Machine

/-- The completion of the latched command (R222): a reserved word takes BAD_COMMAND (R223). -/
def completeCommand (s : State) : Host.Outcome State Fault Refusal :=
  match decode s.cur.word with
  | .ok i => exec i s
  | .error _ => .next (takeError .badCommand s)

/-- The engine's turn: the completion while BUSY = 1, no step while BUSY = 0 (R222). -/
def engineStep (s : State) : Host.Outcome State Fault Refusal :=
  if s.busy then completeCommand s else .next s

/-- One event, already taken off the list. -/
def applyEvent (e : Event) (s : State) : Host.Outcome State Fault Refusal :=
  match e with
  | .host op => .next (hostAccess op s)
  | .engine => engineStep s
  | .powerOn => .next (powerOnReset s)

/-- One step: the oldest event; when the host does nothing more, the engine's turn (R304: a completion
is always eventually taken; notes/assumptions/2.md). -/
def stepEvents (s : State) : Host.Outcome State Fault Refusal :=
  match s.events with
  | [] => engineStep s
  | e :: rest => applyEvent e { s with events := rest }

/-- The state in which command word `w` has just been accepted and the engine moves next. -/
def issuedNext (w : Word) (s : State) : State := { issue w s with events := .engine :: s.events }

end Sys2Proof.Machine
end

