-- ==== Sys2Proof/Machine/Step.lean ====
section
/-! DEFINITION. The step of the machine, and how a command word comes to be its next command. -/

namespace Sys2Proof.Machine

/-- One step of the block and its inputs. -/
def step (s : State) : Host.Outcome State Fault Refusal := stepEvents s

/-- `s` after the host's CMD write of the table's word has been accepted, the engine to move next
(notes/assumptions/11.md). -/
def State.withFetchWord (s : State) (nbits w : Nat) : State := issuedNext (u32 (w % 2 ^ nbits)) s

end Sys2Proof.Machine
end

