-- ==== Sys2Proof/Machine/HostSequence.lean ====
section
/-! DEFINITION. The host assembly (spec 30_encoding.md R117, R118) and the reference host sequence, the FrameProtocolDecoder (45_host_sequence.md R235 to R246), as functions over the block's host operations. -/

namespace Sys2Proof.Machine

/-- A statement of host assembly (R117). -/
inductive AsmStmt where
  | wr (r : Reg) (v : Word)
  | rd (r : Reg)
  | wrm (sp : Space) (a : Word) (b : Byte)
  | rdm (sp : Space) (a : Word)
  | cmd (i : Instr)
  | wait
  deriving DecidableEq, Repr

/-- The pseudo-instructions (R118). -/
inductive Pseudo where
  | nop
  | convertAs (w h : Word)
  | convert
  | classify (r c : Word)
  | scan (first last : Word)
  | packb (o : Order) (off n : Word)
  | packi (o : Order) (off n : Word)
  | check
  deriving DecidableEq, Repr

/-- The expansion table of R118. -/
def Pseudo.expand : Pseudo → List AsmStmt
  | .nop => [.cmd .nop, .wait]
  | .convertAs w h => [.wr .width w, .wr .height h, .cmd .convert, .wait]
  | .convert => [.cmd .convert, .wait]
  | .classify r c => [.wr .arg0 r, .wr .arg1 c, .cmd .classify, .wait]
  | .scan a b => [.wr .arg0 a, .wr .arg1 b, .cmd .scan, .wait]
  | .packb o off n => [.wr .arg0 off, .wr .arg1 n, .cmd (.packb o), .wait]
  | .packi o off n => [.wr .arg0 off, .wr .arg1 n, .cmd (.packi o), .wait]
  | .check => [.rd .status, .wr .status 2]

/-- The state after the running command's completion, or the same state when none runs.
The engine's turn always gives a next state (`Sys2Proof.Laws.engineStep_next`). -/
def afterEngine (s : State) : State :=
  match engineStep s with
  | .next t => t
  | .fault r => nomatch r
  | .refused _ => s

/-- What a statement does. `wait` reads STATUS until BUSY = 0 (R117): the reads before the completion
change no state of the block (R88), so the model keeps the last one (notes/assumptions/14.md). -/
def runStmt (s : State) : AsmStmt → State
  | .wr r v => hostAccess (.regWrite r.offset v) s
  | .rd r => hostAccess (.regRead r.offset) s
  | .wrm sp a b => hostAccess (.memWrite sp a b) s
  | .rdm sp a => hostAccess (.memRead sp a) s
  | .cmd i => hostAccess (.regWrite Reg.cmd.offset (encode i)) s
  | .wait => hostAccess (.regRead Reg.status.offset) (afterEngine s)

/-- A pseudo-instruction, statement by statement. -/
def runPseudo (p : Pseudo) (s : State) : State := p.expand.foldl runStmt s

/-- The host events of a statement when `wait` polls STATUS `polls` times before the completion and
once after it. -/
def AsmStmt.events (polls : Nat) : AsmStmt → List Event
  | .wr r v => [.host (.regWrite r.offset v)]
  | .rd r => [.host (.regRead r.offset)]
  | .wrm sp a b => [.host (.memWrite sp a b)]
  | .rdm sp a => [.host (.memRead sp a)]
  | .cmd i => [.host (.regWrite Reg.cmd.offset (encode i))]
  | .wait => List.replicate polls (.host (.regRead Reg.status.offset)) ++ [.engine, .host (.regRead Reg.status.offset)]

/-- The host events of a pseudo-instruction. -/
def Pseudo.events (polls : Nat) (p : Pseudo) : List Event := p.expand.flatMap (AsmStmt.events polls)

/-- The ERRCODE field of STATUS (R35). -/
def errcodeField (status : Word) : BitVec 4 := status.extractLsb' 8 4

/-- `run(M)` of R237: run the pseudo-instruction, read STATUS, return its ERRCODE. -/
def runCommand (p : Pseudo) (s : State) : BitVec 4 × State :=
  let t := runPseudo p s
  (errcodeField (readRegister t Reg.status.offset), hostAccess (.regRead Reg.status.offset) t)

/-- The results of the sequence (R236). -/
inductive HostResult where
  | ok (body : List Byte)
  | invalidMagic
  | invalidVersion
  | bodyTooLong
  | checksumMismatch
  | outOfBounds
  | invalidBodyLength
  | hardwareError (code : BitVec 4)
  deriving DecidableEq, Repr

/-- `scan_error(e)` (R237): code 1 is OUT_OF_BOUNDS. -/
def scanError (e : BitVec 4) : HostResult := if e = 1 then .outOfBounds else .hardwareError e

/-- A part of the sequence: it ends the sequence with a result, or goes on with a value. -/
abbrev HostPart (α : Type) := State → Except HostResult α × State

/-- Go on after a part, unless it ended the sequence: the first failing step decides (R242). -/
def HostPart.andThen {α β : Type} (p : HostPart α) (k : α → HostPart β) : HostPart β := fun s =>
  match p s with
  | (.error r, t) => (.error r, t)
  | (.ok a, t) => k a t

/-- Issue a command; end with the result `onError e` when its ERRCODE `e` is not 0. -/
def runOr (onError : BitVec 4 → HostResult) (p : Pseudo) : HostPart Unit := fun s =>
  let (e, t) := runCommand p s
  if e ≠ 0 then (.error (onError e), t) else (.ok (), t)

/-- Read a register. -/
def readPart (r : Reg) : HostPart Word := fun s =>
  (.ok (readRegister s r.offset), hostAccess (.regRead r.offset) s)

/-- End with `r` when `c` holds. -/
def failIf (c : Bool) (r : HostResult) : HostPart Unit := fun s =>
  if c then (.error r, s) else (.ok (), s)

/-- `rdm OUT[m], …`: `n` bytes from `m` on. -/
def readOut : (n m : Nat) → State → List Byte × State
  | 0, _, s => ([], s)
  | n + 1, m, s =>
    let b := (loadByte .out (u32 m) s).1
    let (rest, t) := readOut n (m + 1) (hostAccess (.memRead .out (u32 m)) s)
    (b :: rest, t)

/-- The bytes of the last pack, as a part. -/
def readOutPart (n : Nat) : HostPart (List Byte) := fun s =>
  let (bytes, t) := readOut n 0 s
  (.ok bytes, t)

/-- `wrm FRAME[a], frame[a]` for every byte of the caller's buffer, in order (R237). An address of
2^32 or more cannot be put on the 32-bit bus (R10) and lies past the end of FRAME (R9, R83). -/
def loadFrame (frame : List Byte) (s : State) : State :=
  frame.zipIdx.foldl
    (fun t c => if c.2 < 2 ^ 32 then hostAccess (.memWrite .frame (u32 c.2) c.1) t else t) s

/-- `read_int(a)` (R237, R239): 16 symbols as a signed 32-bit integer. -/
def readInt (a : Nat) : HostPart Int :=
  (runOr scanError (.scan (u32 a) (u32 (a + 16)))).andThen fun _ =>
  (runOr scanError (.packi .msFirst 0 16)).andThen fun _ =>
  (readPart .result).andThen fun v => fun s => (.ok (s32 v), s)

/-- The chunk size `K = SYMDEPTH − (SYMDEPTH mod 4)` (R240). -/
def chunkSize (symdepth : Word) : Nat := symdepth.toNat - symdepth.toNat % 4

/-- `read_body(p, r)` (R240), with chunk size `K`; `fuel` bounds the number of chunks. -/
def readBody (K : Nat) : (fuel p r : Nat) → (body : List Byte) → (sum : Word) → HostPart (List Byte × Word)
  | 0, _, _, body, sum => fun s => (.ok (body, sum), s)
  | fuel + 1, p, r, body, sum =>
    if r = 0 then fun s => (.ok (body, sum), s)
    else
      (runOr scanError (.scan (u32 p) (u32 (p + min r K)))).andThen fun _ =>
      (runOr scanError (.packb .msFirst 0 (u32 (min r K)))).andThen fun _ =>
      (readOutPart (min r K / 4)).andThen fun bytes =>
      (readPart .bsum).andThen fun chunkSum =>
      readBody K fuel (p + min r K) (r - min r K) (body ++ bytes) (sum + chunkSum)

/-- The magic "amed" (R236, R238). -/
def magicBytes : List Byte := [0x61, 0x6D, 0x65, 0x64]

/-- Step 1, MAGIC (R237, R238). -/
def readMagic : HostPart Unit :=
  (runOr scanError (.scan 0 16)).andThen fun _ =>
  (runOr HostResult.hardwareError (.packb .msFirst 0 16)).andThen fun _ =>
  (readOutPart 4).andThen fun m => failIf (m ≠ magicBytes) .invalidMagic

/-- Step 2, VERSION (R237, R239). -/
def readVersion : HostPart Unit :=
  (readInt 16).andThen fun version => failIf (version ≤ 0) .invalidVersion

/-- Step 3, BODY_LENGTH (R237, R239). -/
def readLength : HostPart Nat :=
  (readInt 32).andThen fun len =>
  (readPart .capacity).andThen fun capacity =>
  (failIf (s32 capacity < len) .bodyTooLong).andThen fun _ =>
  (failIf (len < 0) .invalidBodyLength).andThen fun _ => fun s => (.ok len.toNat, s)

/-- Steps 4 and 5, CHECKSUM and BODY (R237, R240, R241), of a body of `len` bytes. -/
def readChecked (len : Nat) : HostPart (List Byte) :=
  (readInt 48).andThen fun chk =>
  (readPart .symdepth).andThen fun symdepth =>
  (readBody (chunkSize symdepth) (4 * len) 64 (4 * len) [] 0).andThen fun body =>
  (failIf (s32 body.2 ≠ chk) .checksumMismatch).andThen fun _ => fun s => (.ok body.1, s)

/-- Steps 1 to 5 of R237, on a frame already converted. -/
def readFields : HostPart (List Byte) :=
  readMagic.andThen fun _ => readVersion.andThen fun _ => readLength.andThen fun len => readChecked len

/-- The reference host sequence `decode(frame, W, H)` (R237). -/
def decodeFrame (frame : List Byte) (W H : Dim) (s : State) : HostResult × State :=
  let (r, t) := (runOr HostResult.hardwareError (.convertAs (W.setWidth 32) (H.setWidth 32))).andThen
    (fun _ => readFields) (loadFrame frame s)
  match r with
  | .ok body => (.ok body, t)
  | .error e => (e, t)

end Sys2Proof.Machine
end

