-- ==== Sys2Proof/Safety.lean ====
section
/-! DEFINITION. What a safe run is: the invariant of the block (spec 10_state.md R54, 00_scope.md R9) and that no step stops. -/

namespace Sys2Proof

open Sys2Proof.Machine

/-- A memory in canonical form, inside its space, each byte as narrow as the space holds it (R52, R82). -/
structure MemOk (p : Params) (sp : Space) (m : Mem) (draws : Nat) : Prop where
  wf : m.wf
  bounded : ∀ c ∈ m.cells, c.1 < p.extent sp
  narrowed : ∀ c ∈ m.cells, narrow sp c.2 = c.2
  fresh : m.epoch < draws

/-- The invariant of the block. -/
structure Inv (s : State) : Prop where
  /-- The parameters meet R9's constraints. -/
  params : s.params.Legal
  frame : MemOk s.params .frame s.frame s.draws
  pix : MemOk s.params .pix s.pix s.draws
  sym : MemOk s.params .sym s.sym s.draws
  out : MemOk s.params .out s.out s.draws
  /-- SYMCOUNT never exceeds SYM_DEPTH (R43). -/
  symcount : s.symcount.toNat ≤ s.params.symDepth
  /-- OUTCOUNT never exceeds OUT_DEPTH (R44, R200). -/
  outcount : s.outcount.toNat ≤ s.params.outDepth
  /-- PV = 1 implies legal frame dimensions (R54). -/
  pvDims : s.pv = true → LegalDims s.params (frameW s) (frameH s)
  /-- PV = 1 implies that PIX holds a written byte for every byte of the matrix (R51, R147). -/
  pvPix : s.pv = true → ∀ a, a < 3 * (frameW s * frameH s) → (cellAt s.pix.cells a).isSome = true
  /-- While BUSY = 1, DONE = 0 and ERRCODE = 0 (R221). -/
  busyStatus : s.busy = true → s.done = false ∧ s.errcode = .none

/-- A step that does not stop. -/
def StepsOn (s : State) : Prop := ∃ t, step s = .next t

/-- A safe state: the invariant holds and the block steps on. -/
def SafeState (s : State) : Prop := Inv s ∧ StepsOn s

/-! The terms the claims are made in, written out from the rules and not through the model's operations. -/

namespace Claims

/-- The state before a failing command plus the four fields of R274. -/
def failedWith (e : ErrCode) (s : State) : State :=
  { s with err := true, errcode := e, done := true, busy := false }

/-- The status fields of a successful completion (R222). -/
def doneWell (s : State) : State := { s with errcode := .none, done := true, busy := false }

/-- The engine moves next in `s`, and `u` is `s` with that event taken off. -/
def EngineTurn (s u : State) : Prop :=
  (s.events = [] ∧ u = s) ∨ ∃ rest, s.events = .engine :: rest ∧ u = { s with events := rest }

/-- The block without the model's own queues: what a run leaves of the machine itself. -/
def blockOf (s : State) : State := { s with events := [], replies := [] }

/-- Rounding a rational toward zero (R12). -/
def truncQ (x : ℚ) : ℤ := if 0 ≤ x then ⌊x⌋ else ⌈x⌉

/-- `clamp` of a rational truncated toward zero, as the source words a channel (R142 to R144). -/
def truncClamp (x : ℚ) : ℤ := min 255 (max 0 (truncQ x))

/-- Every register at the value R33 and R290 give it, derived registers and `irq` included. -/
def RegistersReset (t : State) : Prop :=
  t.ie = false ∧ t.busy = false ∧ t.done = false ∧ t.err = false ∧ t.lost = false ∧ t.pv = false ∧
  t.errcode = .none ∧ t.width = 0 ∧ t.height = 0 ∧ t.arg0 = 0 ∧ t.arg1 = 0 ∧ t.result = 0 ∧
  t.bsum = 0 ∧ t.symcount = 0 ∧ t.outcount = 0 ∧
  readRegister t 0x2C = 0 ∧ readRegister t 0x30 = 0 ∧ readRegister t 0x34 = 0 ∧
  readRegister t 0x38 = 0xFFFFFFF0 ∧ irq t = false

/-- The pixels of a window that differ from the reference colour of symbol `k` (R167's corrupted pixels). -/
def corrupted (px : List RGB) (k : Sym) : Nat := px.countP (fun p => decide (p ≠ refc k))

/-- The RGB triple of pixel (i, j) of a frame buffer, from the bytes alone (R84, R141 to R144). -/
def framePixel (binary64 : Bool) (frame : List Byte) (W H i j : Nat) : RGB :=
  convertYuv binary64
    { y := frame.getD (i * W + j) 0
      u := frame.getD (W * H + (i / 2) * (W / 2) + j / 2) 0
      v := frame.getD (W * H + W * H / 4 + (i / 2) * (W / 2) + j / 2) 0 }

/-- The symbol of cell `q` of a frame buffer, from the bytes alone (R181, R182, R165). -/
def frameSymbol (binary64 : Bool) (frame : List Byte) (W H q : Nat) : Sym :=
  (classify ((List.range 16).map fun k =>
    framePixel binary64 frame W H (4 * (q / (W / 4)) + k / 4) (4 * (q % (W / 4)) + k % 4))).1

/-- The signed 32-bit field of the 16 symbols from position `a` of a symbol stream (R205, R239). -/
def streamInt (x : Nat → Sym) (a : Nat) : Int :=
  s32 (u32 (∑ k ∈ Finset.range 16, (x (a + k)).toNat * 4 ^ (15 - k)))

/-- The byte of the 4 symbols from position `a` of a symbol stream (R201). -/
def streamByte (x : Nat → Sym) (a : Nat) : Byte :=
  BitVec.ofNat 8 (64 * (x a).toNat + 16 * (x (a + 1)).toNat + 4 * (x (a + 2)).toNat + (x (a + 3)).toNat)

/-- The `n` bytes from position `a` of a symbol stream. -/
def streamBytes (x : Nat → Sym) (a n : Nat) : List Byte := (List.range n).map fun m => streamByte x (a + 4 * m)

/-- The result R236, R237, R242 and R245 give for a grid of `cells` cells with symbol stream `x`: the
first failing step decides. -/
def protocolResult (cells : Nat) (x : Nat → Sym) : HostResult :=
  let version := streamInt x 16
  let len := streamInt x 32
  if cells < 16 then .outOfBounds
  else if streamBytes x 0 4 ≠ [0x61, 0x6D, 0x65, 0x64] then .invalidMagic
  else if cells < 32 then .outOfBounds
  else if version ≤ 0 then .invalidVersion
  else if cells < 48 then .outOfBounds
  else if ((cells : Int) - 64) / 4 < len then .bodyTooLong
  else if len < 0 then .invalidBodyLength
  else
    let body := streamBytes x 64 len.toNat
    if s32 (u32 (body.map fun b => b.toNat).sum) ≠ streamInt x 48 then .checksumMismatch
    else .ok body

end Claims
end Sys2Proof
end

