-- ==== Sys2Proof/Certificates/Slice0/Obligations.lean ====
section
/-! DEFINITION. The statements for the provers. -/

open Sys2Proof Sys2Proof.Machine Sys2Proof.Claims

/-! ## Encoding -/

/-- R113: the eight full words, written out. -/
def Obligations.FullCommandWordsDecode : Prop :=
  decode 0x00000000 = .ok .nop ∧ decode 0x00000001 = .ok .convert ∧
  decode 0x00000002 = .ok .classify ∧ decode 0x00000003 = .ok .scan ∧
  decode 0x00000004 = .ok (.packb .msFirst) ∧ decode 0x00000104 = .ok (.packb .lsFirst) ∧
  decode 0x00000005 = .ok (.packi .msFirst) ∧ decode 0x00000105 = .ok (.packi .lsFirst)

/-- R113, R116: a word decodes to a command exactly when it is that command's word. -/
def Obligations.DecodeOkIffEncoded : Prop :=
  ∀ (w : Word) (i : Instr), decode w = .ok i ↔ w = encode i

/-- R115, R223: the reserved words, and what the engine's turn does with a latched one. -/
def Obligations.ReservedWordsCompleteWithBadCommand : Prop :=
  (∀ w : Word, (∃ r, decode w = .error r) ↔
    (6 ≤ w.toNat % 256 ∨ w.toNat / 512 ≠ 0 ∨
      (w.toNat / 256 % 2 = 1 ∧ w.toNat % 256 ≠ 4 ∧ w.toNat % 256 ≠ 5))) ∧
  (∀ (s u : State), s.busy = true → EngineTurn s u → (∃ r, decode s.cur.word = .error r) →
    step s = .next (failedWith .badCommand u)) ∧
  ErrCode.badCommand.code = 6

/-! ## The command engine -/

/-- R222: while BUSY = 1 the engine's turn runs the command that the latched word decodes to; and the
word given to `withFetchWord` is the command that the next step runs. -/
def Obligations.StepRunsTheLatchedCommand : Prop :=
  (∀ (s u : State) (i : Instr), s.busy = true → EngineTurn s u → decode s.cur.word = .ok i →
    step s = exec i u) ∧
  (∀ (s : State) (w : Word) (i : Instr), decode w = .ok i →
    step (s.withFetchWord 32 w.toNat) =
      exec i { s with cur := ⟨w, s.arg0, s.arg1⟩, done := false, errcode := .none, busy := true })

/-- R222: "While BUSY = 0 the engine has no step." -/
def Obligations.IdleEngineHasNoStep : Prop :=
  ∀ (s u : State), s.busy = false → EngineTurn s u → step s = .next u

/-- R221: a CMD write latches and sets BUSY when idle, and is lost while a command runs. -/
def Obligations.CmdWriteIssuesOrIsLost : Prop :=
  ∀ (s : State) (w : Word),
    (s.busy = false → hostAccess (.regWrite 0x18 w) s =
      { s with cur := ⟨w, s.arg0, s.arg1⟩, done := false, errcode := .none, busy := true }) ∧
    (s.busy = true → hostAccess (.regWrite 0x18 w) s = { s with lost := true })

/-- R274, R222: every completion clears BUSY and sets DONE; one with an error code changes the four
fields of R274 and nothing else; one without leaves ERR alone. -/
def Obligations.CompletionsArePrecise : Prop :=
  ∀ (s u : State), s.busy = true → EngineTurn s u →
    ∃ t, step s = .next t ∧ t.busy = false ∧ t.done = true ∧
      (t.errcode ≠ .none → t = failedWith t.errcode u) ∧
      (t.errcode = .none → t.err = s.err)

/-- R91: which state each command can write, whatever its outcome. -/
def Obligations.CommandsWriteOnlyTheirTargets : Prop :=
  ∀ (i : Instr) (s t : State), exec i s = .next t →
    (t.params = s.params ∧ t.ie = s.ie ∧ t.lost = s.lost ∧ t.width = s.width ∧ t.height = s.height ∧
      t.arg0 = s.arg0 ∧ t.arg1 = s.arg1 ∧ t.cur = s.cur ∧ t.frame = s.frame ∧
      t.events = s.events ∧ t.replies = s.replies ∧ t.draws = s.draws) ∧
    (i ≠ .convert → t.pix = s.pix ∧ t.pv = s.pv) ∧
    (i ≠ .scan → t.sym = s.sym ∧ t.symcount = s.symcount) ∧
    ((∀ o, i ≠ .packb o) → t.out = s.out ∧ t.outcount = s.outcount ∧ t.bsum = s.bsum) ∧
    (i ≠ .classify → (∀ o, i ≠ .packi o) → t.result = s.result)

/-- R220: NOP completes and changes nothing else; from reset it leaves STATUS = 0x00000002. -/
def Obligations.NopOnlyCompletes : Prop :=
  (∀ s : State, exec .nop s = .next (doneWell s)) ∧
  decode 0x00000000 = .ok .nop ∧
  readRegister (runPseudo .nop State.reset) 0x04 = 0x00000002

/-! ## CONVERT -/

/-- R140, R141, R146, R147, R85: with legal dimensions every pixel of PIX is the conversion of its
three samples, no other byte of PIX changes, PV is set, and nothing else but the completion's fields
changes. -/
def Obligations.ConvertWritesEveryPixel : Prop :=
  ∀ s : State,
    let W := s.width.toNat
    let H := s.height.toNat
    2 ≤ W → 2 ≤ H → W % 2 = 0 → H % 2 = 0 → W * H ≤ s.params.pixCap →
    3 * (W * H) / 2 ≤ s.params.frameDepth →
    ∃ t, exec .convert s = .next t ∧
      (∀ i j, i < H → j < W →
        let y := peek s .frame (i * W + j)
        let u := peek s .frame (W * H + (i / 2) * (W / 2) + j / 2)
        let v := peek s .frame (W * H + W * H / 4 + (i / 2) * (W / 2) + j / 2)
        peek t .pix (3 * (i * W + j)) = cscR y v ∧
        peek t .pix (3 * (i * W + j) + 1) = cscG s.params.cscGBinary64 y u v ∧
        peek t .pix (3 * (i * W + j) + 2) = cscB y u) ∧
      (∀ a, 3 * (W * H) ≤ a → peek t .pix a = peek s .pix a) ∧
      t = doneWell { s with pix := t.pix, pv := true }

/-- R146, R267, R147: CONVERT with any other dimensions raises BAD_DIMENSIONS (code 2) and writes nothing. -/
def Obligations.ConvertRejectsIllegalDimensions : Prop :=
  ErrCode.badDimensions.code = 2 ∧
  ∀ s : State,
    let W := s.width.toNat
    let H := s.height.toNat
    (W < 2 ∨ H < 2 ∨ W % 2 = 1 ∨ H % 2 = 1 ∨ s.params.pixCap < W * H ∨
      s.params.frameDepth < 3 * (W * H) / 2) →
    exec .convert s = .next (failedWith .badDimensions s)

/-- R142, R143 (CSC_G_BINARY64 false), R144: each channel is the source's real-valued formula,
truncated toward zero and clamped to 0..255. -/
def Obligations.ChannelsAreTheTruncatedFormulas : Prop :=
  ∀ y u v : Byte,
    let yq : ℚ := (y.toNat : ℚ)
    let uq : ℚ := (u.toNat : ℚ) - 128
    let vq : ℚ := (v.toNat : ℚ) - 128
    ((cscR y v).toNat : ℤ) = truncClamp (yq + 14075 / 10000 * vq) ∧
    ((cscG false y u v).toNat : ℤ) = truncClamp (yq - 3455 / 10000 * uq - 7169 / 10000 * vq) ∧
    ((cscB y u).toNat : ℤ) = truncClamp (yq + 1779 / 1000 * uq)

/-- R143: with CSC_G_BINARY64 the green channel is Y − 46 instead of Y − 45 at the 79 inputs
(U, V) = (30, 238), 95 ≤ Y ≤ 173, and the exact one everywhere else. -/
def Obligations.Binary64GreenDiffersAtSeventyNineInputs : Prop :=
  ∀ y u v : Byte,
    ((u.toNat = 30 ∧ v.toNat = 238 ∧ 95 ≤ y.toNat ∧ y.toNat ≤ 173) →
      (cscG false y u v).toNat = y.toNat - 45 ∧ (cscG true y u v).toNat = y.toNat - 46) ∧
    (¬ (u.toNat = 30 ∧ v.toNat = 238 ∧ 95 ≤ y.toNat ∧ y.toNat ≤ 173) →
      cscG true y u v = cscG false y u v)

/-- R84: a CONVERT reads no FRAME byte past the frame: two states with equal dimensions, parameters
and first 3·W·H/2 FRAME bytes get equal pixels. -/
def Obligations.ConvertReadsOnlyTheFrameBytes : Prop :=
  ∀ s t : State, s.params = t.params → s.width = t.width → s.height = t.height →
    LegalDims s.params s.width.toNat s.height.toNat →
    (∀ a, a < 3 * (s.width.toNat * s.height.toNat) / 2 → peek s .frame a = peek t .frame a) →
    ∃ s' t', exec .convert s = .next s' ∧ exec .convert t = .next t' ∧
      ∀ a, a < 3 * (s.width.toNat * s.height.toNat) → peek s' .pix a = peek t' .pix a

/-! ## CLASSIFY -/

/-- R160, R161, R166: CLASSIFY of a window inside the matrix writes its symbol to RESULT and nothing
else but the completion's fields. -/
def Obligations.ClassifyWritesTheWindowsSymbol : Prop :=
  ∀ s : State, s.pv = true → s.cur.a0.toNat + 4 ≤ s.height.toNat → s.cur.a1.toNat + 4 ≤ s.width.toNat →
    exec .classify s = .next (doneWell { s with
      result := (classify ((List.range 4).flatMap fun a => (List.range 4).map fun b =>
        pixelAt s (s.cur.a0.toNat + a) (s.cur.a1.toNat + b))).1.setWidth 32 })

/-- R166, R271: CLASSIFY's errors and their order: NO_FRAME (code 5) first, then OUT_OF_BOUNDS
(code 1), both leaving everything else unchanged. -/
def Obligations.ClassifyErrorsInOrder : Prop :=
  ErrCode.noFrame.code = 5 ∧ ErrCode.outOfBounds.code = 1 ∧
  ∀ s : State,
    (s.pv = false → exec .classify s = .next (failedWith .noFrame s)) ∧
    (s.pv = true → s.height.toNat < s.cur.a0.toNat + 4 ∨ s.width.toNat < s.cur.a1.toNat + 4 →
      exec .classify s = .next (failedWith .outOfBounds s))

/-- R12, R162: `isqrt n` is the largest r with r² ≤ n. -/
def Obligations.IsqrtIsTheLargestRoot : Prop :=
  ∀ n : Nat, isqrt n * isqrt n ≤ n ∧ ∀ r, r * r ≤ n → r ≤ isqrt n

/-- R162, R163: squared distances, scores and trimmed sums stay within the widths the spec gives. -/
def Obligations.ScoresAndSumsAreBounded : Prop :=
  (∀ p q : RGB, sqDist p q ≤ 195075 ∧ score p q ≤ 441) ∧
  (∀ (px : List RGB) (k : Sym), (classify px).2.at k ≤ 6174)

/-- R164: the symbol is the smallest one whose trimmed sum is minimal. -/
def Obligations.SelectedSymbolIsTheFirstMinimum : Prop :=
  ∀ (px : List RGB) (k : Sym),
    (classify px).2.at (classify px).1 ≤ trimmedSum px (refc k) ∧
    (k.toNat < (classify px).1.toNat → (classify px).2.at (classify px).1 < trimmedSum px (refc k))

/-- R161: the order of a window's pixels is not observable. -/
def Obligations.ClassifyIgnoresPixelOrder : Prop :=
  ∀ px qx : List RGB, px.Perm qx → classify px = classify qx

/-- R167, the spec's own inference from R162 to R164: up to five arbitrary pixels never change the symbol of an exact-colour window, with the
rule's two bounds for any number of them. -/
def Obligations.FiveCorruptedPixelsKeepTheSymbol : Prop :=
  ∀ (px : List RGB) (k : Sym), px.length = 16 →
    trimmedSum px (refc k) ≤ (corrupted px k - 2) * 441 ∧
    (∀ j, j ≠ k → (14 - corrupted px k) * 181 ≤ trimmedSum px (refc j)) ∧
    (corrupted px k ≤ 5 → (classify px).1 = k) ∧
    (corrupted px k ≤ 2 → trimmedSum px (refc k) = 0)

/-! ## SCAN -/

/-- R180, R181, R182, R185: SCAN writes the symbol of each cell of the range in order, SYMCOUNT, and
nothing else but the completion's fields. -/
def Obligations.ScanClassifiesTheRange : Prop :=
  ∀ s : State,
    let first := s.cur.a0.toNat
    let last := s.cur.a1.toNat
    let G := s.width.toNat / 4
    s.pv = true → first ≤ last → last - first ≤ s.params.symDepth →
    (first = last ∨ last ≤ G * (s.height.toNat / 4)) →
    ∃ t, exec .scan s = .next t ∧
      (∀ k, k < last - first → peek t .sym k =
        (classify (window s (4 * ((first + k) / G)) (4 * ((first + k) % G)))).1.setWidth 8) ∧
      (∀ a, last - first ≤ a → peek t .sym a = peek s .sym a) ∧
      t.symcount.toNat = last - first ∧
      t = doneWell { s with sym := t.sym, symcount := t.symcount }

/-- R183, R184, R271: SCAN's errors in their order, each leaving everything else unchanged. -/
def Obligations.ScanErrorsInOrder : Prop :=
  ErrCode.badRange.code = 3 ∧
  ∀ s : State,
    let first := s.cur.a0.toNat
    let last := s.cur.a1.toNat
    (s.pv = false → exec .scan s = .next (failedWith .noFrame s)) ∧
    (s.pv = true → last < first → exec .scan s = .next (failedWith .badRange s)) ∧
    (s.pv = true → first ≤ last → s.params.symDepth < last - first →
      exec .scan s = .next (failedWith .badRange s)) ∧
    (s.pv = true → first < last → last - first ≤ s.params.symDepth →
      s.width.toNat / 4 * (s.height.toNat / 4) < last →
      exec .scan s = .next (failedWith .outOfBounds s))

/-- R183: the window of a symbol index lies inside the matrix exactly when the index is below CELLS. -/
def Obligations.CellWindowInsideIffIndexBelowCells : Prop :=
  ∀ (s : State) (idx : Nat), idx < cellCount s ↔
    (4 * cellRow s idx + 4 ≤ s.height.toNat ∧ 4 * cellCol s idx + 4 ≤ s.width.toNat)

/-- R186: on a frame narrower than a cell every non-empty SCAN that fits SYM raises OUT_OF_BOUNDS, and
an empty one succeeds with SYMCOUNT = 0 and no SYM entry written. -/
def Obligations.ZeroWidthGridScans : Prop :=
  ∀ s : State, s.pv = true → s.width.toNat < 4 →
    (s.cur.a0.toNat < s.cur.a1.toNat → s.cur.a1.toNat - s.cur.a0.toNat ≤ s.params.symDepth →
      exec .scan s = .next (failedWith .outOfBounds s)) ∧
    (s.cur.a0 = s.cur.a1 → exec .scan s = .next (doneWell { s with symcount := 0 }))

/-! ## PACKB and PACKI -/

/-- R200 to R203: PACKB writes each group of four symbols as one byte in the chosen order, OUTCOUNT,
BSUM, and nothing else but the completion's fields. -/
def Obligations.PackbWritesBytesAndSum : Prop :=
  ∀ (s : State) (o : Order),
    let off := s.cur.a0.toNat
    let n := s.cur.a1.toNat
    n % 4 = 0 → off + n ≤ s.symcount.toNat →
    ∃ t, exec (.packb o) s = .next t ∧
      (∀ m, m < n / 4 →
        let s0 := (symAt s (off + 4 * m)).toNat
        let s1 := (symAt s (off + 4 * m + 1)).toNat
        let s2 := (symAt s (off + 4 * m + 2)).toNat
        let s3 := (symAt s (off + 4 * m + 3)).toNat
        (peek t .out m).toNat =
          match o with
          | .msFirst => 64 * s0 + 16 * s1 + 4 * s2 + s3
          | .lsFirst => 64 * s3 + 16 * s2 + 4 * s1 + s0) ∧
      (∀ a, n / 4 ≤ a → peek t .out a = peek s .out a) ∧
      t.outcount.toNat = n / 4 ∧
      t.bsum.toNat = (∑ m ∈ Finset.range (n / 4), (peek t .out m).toNat) % 2 ^ 32 ∧
      t = doneWell { s with out := t.out, outcount := t.outcount, bsum := t.bsum }

/-- R207, R271: the packer's range checks in their order; a failing pack writes nothing. -/
def Obligations.PackErrorsInOrder : Prop :=
  ErrCode.badLength.code = 4 ∧ ErrCode.badRange.code = 3 ∧
  ∀ (s : State) (o : Order),
    (s.cur.a1.toNat % 4 ≠ 0 → exec (.packb o) s = .next (failedWith .badLength s)) ∧
    (s.cur.a1.toNat % 4 = 0 → s.symcount.toNat < s.cur.a0.toNat + s.cur.a1.toNat →
      exec (.packb o) s = .next (failedWith .badRange s)) ∧
    (s.symcount.toNat < s.cur.a0.toNat + s.cur.a1.toNat →
      exec (.packi o) s = .next (failedWith .badRange s))

/-- R204 to R206: PACKI writes the base-4 number of the range, in the chosen order and modulo 2^32, to
RESULT, and nothing else but the completion's fields. -/
def Obligations.PackiWritesTheBaseFourNumber : Prop :=
  ∀ (s : State) (o : Order),
    let off := s.cur.a0.toNat
    let n := s.cur.a1.toNat
    off + n ≤ s.symcount.toNat →
    exec (.packi o) s = .next (doneWell { s with
      result := BitVec.ofNat 32 (∑ k ∈ Finset.range n, (symAt s (off + k)).toNat *
        match o with
        | .msFirst => 4 ^ (n - 1 - k)
        | .lsFirst => 4 ^ k) })

/-- R208: the result is that of a wrapping 32-bit accumulator: shift left by 2, add the symbol; for
LS-first with the range reversed. -/
def Obligations.PackiIsTheWrappingAccumulator : Prop :=
  ∀ (s : State),
    let off := s.cur.a0.toNat
    let n := s.cur.a1.toNat
    off + n ≤ s.symcount.toNat →
    (∃ t, exec (.packi .msFirst) s = .next t ∧
      t.result = (List.range n).foldl (fun acc k => 4 * acc + (symAt s (off + k)).setWidth 32) (0 : Word)) ∧
    (∃ t, exec (.packi .lsFirst) s = .next t ∧
      t.result = (List.range n).foldl
        (fun acc k => 4 * acc + (symAt s (off + (n - 1 - k))).setWidth 32) (0 : Word))

/-- R204, R208: of more than 16 symbols only the last 16 (MS-first) or the first 16 (LS-first) count,
and of exactly 16 the sign bit is bit 1 of the first symbol (MS-first). -/
def Obligations.PackiKeepsSixteenSymbols : Prop :=
  ∀ (n : Nat) (x : Nat → Sym), 16 ≤ n →
    u32 (packedInt .msFirst n x) = u32 (packedInt .msFirst 16 (fun k => x (n - 16 + k))) ∧
    u32 (packedInt .lsFirst n x) = u32 (packedInt .lsFirst 16 x) ∧
    (u32 (packedInt .msFirst 16 x)).getLsbD 31 = (x 0).getLsbD 1

/-! ## The host's accesses -/

/-- R34, R35, R36: the fields of CTRL and STATUS as the host reads them; reserved bits read 0. -/
def Obligations.ControlAndStatusLayout : Prop :=
  ∀ s : State,
    (readRegister s 0x00).toNat = 2 * s.ie.toNat ∧
    (readRegister s 0x04).toNat =
      s.busy.toNat + 2 * s.done.toNat + 4 * s.err.toNat + 8 * s.lost.toNat + 16 * s.pv.toNat +
        256 * s.errcode.code.toNat

/-- R45, R46: the derived registers, with no wrap: CELLS is below 2^28 and CAPACITY reads as a signed number;
they are read only. -/
def Obligations.DerivedRegistersReadTheGrid : Prop :=
  ∀ s : State,
    let cells := s.width.toNat / 4 * (s.height.toNat / 4)
    (readRegister s 0x2C).toNat = s.width.toNat / 4 ∧
    (readRegister s 0x30).toNat = s.height.toNat / 4 ∧
    (readRegister s 0x34).toNat = cells ∧ cells < 2 ^ 28 ∧
    s32 (readRegister s 0x38) = ((cells : Int) - 64) / 4 ∧
    (∀ v : Word, hostAccess (.regWrite 0x2C v) s = s ∧ hostAccess (.regWrite 0x30 v) s = s ∧
      hostAccess (.regWrite 0x34 v) s = s ∧ hostAccess (.regWrite 0x38 v) s = s)

/-- R48, R81, R40: reserved and unaligned offsets read 0 (the reply is the model's own record) and ignore
writes; read-only registers ignore writes; CMD reads 0. -/
def Obligations.ReservedOffsetsAreInert : Prop :=
  ∀ (s : State) (off v : Word),
    ((off.toNat % 4 ≠ 0 ∨ 0x44 < off.toNat) →
      hostAccess (.regRead off) s = { s with replies := .word 0 :: s.replies } ∧
      hostAccess (.regWrite off v) s = s) ∧
    (off.toNat ∈ [0x1C, 0x20, 0x28, 0x2C, 0x30, 0x34, 0x38, 0x3C, 0x40, 0x44] →
      hostAccess (.regWrite off v) s = s) ∧
    readRegister s 0x18 = 0

/-- R37, R39, R41 to R44, R47: what every register with storage and every constant register reads as, and that
a host read at any offset replies that word (the reply list is the model's own record, log entry 9). -/
def Obligations.RegisterReadsReturnTheirValues : Prop :=
  ∀ s : State,
    (∀ off : Word, hostAccess (.regRead off) s = { s with replies := .word (readRegister s off) :: s.replies }) ∧
    (readRegister s 0x08).toNat = s.width.toNat ∧ (readRegister s 0x0C).toNat = s.height.toNat ∧
    readRegister s 0x10 = s.arg0 ∧ readRegister s 0x14 = s.arg1 ∧
    readRegister s 0x1C = s.result ∧ readRegister s 0x20 = s.bsum ∧
    readRegister s 0x24 = s.symcount ∧ readRegister s 0x28 = s.outcount ∧
    (s.params.Legal →
      (readRegister s 0x3C).toNat = s.params.symDepth ∧
      (s.params.frameDepth < 2 ^ 32 → (readRegister s 0x40).toNat = s.params.frameDepth) ∧
      (s.params.frameDepth = 2 ^ 32 → readRegister s 0x40 = 0) ∧
      (readRegister s 0x44).toNat = s.params.pixCap)

/-- R37, R38: an accepted WIDTH or HEIGHT write stores bits 15:0, clears PV whatever the value, and
changes nothing else. -/
def Obligations.DimensionWritesClearPixelValid : Prop :=
  ∀ (s : State) (v : Word), s.busy = false →
    hostAccess (.regWrite 0x08 v) s = { s with width := v.setWidth 16, pv := false } ∧
    hostAccess (.regWrite 0x0C v) s = { s with height := v.setWidth 16, pv := false } ∧
    (readRegister (hostAccess (.regWrite 0x08 v) s) 0x08).toNat = v.toNat % 2 ^ 16 ∧
    (readRegister (hostAccess (.regWrite 0x0C v) s) 0x0C).toNat = v.toNat % 2 ^ 16

/-- R43, R39: an accepted SYMCOUNT write stores min(v, SYM_DEPTH); ARG0 and ARG1 writes are accepted at
any time; each changes nothing else. -/
def Obligations.SymcountAndOperandWrites : Prop :=
  ∀ (s : State) (v : Word),
    (s.busy = false → ∃ c : Word, c.toNat = min v.toNat s.params.symDepth ∧
      hostAccess (.regWrite 0x24 v) s = { s with symcount := c }) ∧
    hostAccess (.regWrite 0x10 v) s = { s with arg0 := v } ∧
    hostAccess (.regWrite 0x14 v) s = { s with arg1 := v }

/-- R224, R275: a STATUS write clears exactly the write-1-to-clear bits it names, at any time. -/
def Obligations.StatusWriteClearsNamedBits : Prop :=
  ∀ (s : State) (v : Word),
    hostAccess (.regWrite 0x04 v) s = { s with
      done := if v.getLsbD 1 then false else s.done
      err := if v.getLsbD 2 then false else s.err
      lost := if v.getLsbD 3 then false else s.lost }

/-- R89: while BUSY = 1, writes to WIDTH, HEIGHT, SYMCOUNT, CMD and inside FRAME or SYM only set LOST;
writes past the end, to PIX and OUT, and to read-only or reserved registers do nothing; writes to CTRL,
STATUS, ARG0 and ARG1 are accepted. R225: in every state, idle or busy, a CTRL write with bit 0 clear sets IE
to bit 1 and nothing else, and one with bit 0 set resets the registers and leaves CTRL = 0. -/
def Obligations.BusyWritesAreLost : Prop :=
  (∀ (s : State) (v : Word),
    (v.getLsbD 0 = false → hostAccess (.regWrite 0x00 v) s = { s with ie := v.getLsbD 1 }) ∧
    (v.getLsbD 0 = true → RegistersReset (hostAccess (.regWrite 0x00 v) s) ∧
      readRegister (hostAccess (.regWrite 0x00 v) s) 0x00 = 0)) ∧
  ∀ s : State, s.busy = true →
    (∀ v : Word,
      hostAccess (.regWrite 0x08 v) s = { s with lost := true } ∧
      hostAccess (.regWrite 0x0C v) s = { s with lost := true } ∧
      hostAccess (.regWrite 0x24 v) s = { s with lost := true } ∧
      hostAccess (.regWrite 0x18 v) s = { s with lost := true } ∧
      hostAccess (.regWrite 0x04 v) s = { s with
        done := if v.getLsbD 1 then false else s.done
        err := if v.getLsbD 2 then false else s.err
        lost := if v.getLsbD 3 then false else s.lost } ∧
      hostAccess (.regWrite 0x10 v) s = { s with arg0 := v } ∧
      hostAccess (.regWrite 0x14 v) s = { s with arg1 := v }) ∧
    (∀ off v : Word, (off.toNat % 4 ≠ 0 ∨ 0x44 < off.toNat ∨
        off.toNat ∈ [0x1C, 0x20, 0x28, 0x2C, 0x30, 0x34, 0x38, 0x3C, 0x40, 0x44]) →
      hostAccess (.regWrite off v) s = s) ∧
    (∀ (a : Word) (b : Byte),
      (a.toNat < s.params.frameDepth → hostAccess (.memWrite .frame a b) s = { s with lost := true }) ∧
      (a.toNat < s.params.symDepth → hostAccess (.memWrite .sym a b) s = { s with lost := true }) ∧
      (s.params.frameDepth ≤ a.toNat → hostAccess (.memWrite .frame a b) s = s) ∧
      (s.params.symDepth ≤ a.toNat → hostAccess (.memWrite .sym a b) s = s) ∧
      hostAccess (.memWrite .pix a b) s = s ∧ hostAccess (.memWrite .out a b) s = s)

/-- R55, R302: while BUSY = 1 no host operation but a soft reset touches what the running command
reads, or anything a completion writes but STATUS's write-1-to-clear bits. -/
def Obligations.HostCannotReachTheRunningCommand : Prop :=
  ∀ (s : State) (op : HostOp), s.busy = true →
    (∀ v : Word, op = .regWrite 0x00 v → v.getLsbD 0 = false) →
    let t := hostAccess op s
    t = { s with ie := t.ie, done := t.done, err := t.err, lost := t.lost, arg0 := t.arg0,
                 arg1 := t.arg1, replies := t.replies, draws := t.draws }

/-- R39, R55: a write of ARG0 or ARG1 while a command runs has the same effect before and after the
command's completion. -/
def Obligations.OperandWritesCommuteWithCompletion : Prop :=
  ∀ (s t : State) (v : Word), s.busy = true → engineStep s = .next t →
    engineStep (hostAccess (.regWrite 0x10 v) s) = .next (hostAccess (.regWrite 0x10 v) t) ∧
    engineStep (hostAccess (.regWrite 0x14 v) s) = .next (hostAccess (.regWrite 0x14 v) t)

/-- R52, R82: a host byte stored in FRAME or SYM of an idle block reads back (SYM keeps bits 1:0); every
other byte of every space, and everything else, is unchanged; stores to PIX and OUT and past the end do
nothing. -/
def Obligations.HostStoreThenLoad : Prop :=
  ∀ (s : State) (a : Word) (b : Byte), s.busy = false →
    (a.toNat < s.params.frameDepth →
      ∃ t, hostAccess (.memWrite .frame a b) s = t ∧ peek t .frame a.toNat = b ∧
        (∀ x, x ≠ a.toNat → peek t .frame x = peek s .frame x) ∧ t = { s with frame := t.frame }) ∧
    (a.toNat < s.params.symDepth →
      ∃ t, hostAccess (.memWrite .sym a b) s = t ∧ (peek t .sym a.toNat).toNat = b.toNat % 4 ∧
        (∀ x, x ≠ a.toNat → peek t .sym x = peek s .sym x) ∧ t = { s with sym := t.sym }) ∧
    (s.params.frameDepth ≤ a.toNat → hostAccess (.memWrite .frame a b) s = s) ∧
    (s.params.symDepth ≤ a.toNat → hostAccess (.memWrite .sym a b) s = s) ∧
    hostAccess (.memWrite .pix a b) s = s ∧ hostAccess (.memWrite .out a b) s = s

/-- R82, R83, R90: a host read returns the byte held, unless it is past the end or in the space the
running command writes, where it returns a fresh free value (`Config.freeByte`, log entry 5). -/
def Obligations.HostReadReturnsTheByteOrADraw : Prop :=
  ∀ (s : State) (sp : Space) (a : Word),
    let unspecified := s.params.extent sp ≤ a.toNat ∨
      (s.busy = true ∧ ((sp = .pix ∧ s.cur.word = 0x00000001) ∨ (sp = .sym ∧ s.cur.word = 0x00000003) ∨
        (sp = .out ∧ (s.cur.word = 0x00000004 ∨ s.cur.word = 0x00000104))))
    (¬ unspecified → hostAccess (.memRead sp a) s =
      { s with replies := .byte (peek s sp a.toNat) :: s.replies }) ∧
    (unspecified → hostAccess (.memRead sp a) s =
      { s with replies := .byte (Config.freeByte s.draws sp a.toNat) :: s.replies, draws := s.draws + 1 })

/-- R88: no host read changes the block (the reply and the draw counter are the model's own), and every
write is idempotent but an accepted CMD write and a CTRL write with bit 0 set. -/
def Obligations.HostAccessesAreIdempotent : Prop :=
  (∀ (s : State) (op : HostOp), (∀ off v, op ≠ .regWrite off v) → (∀ sp a b, op ≠ .memWrite sp a b) →
    ∃ r d, hostAccess op s = { s with replies := r :: s.replies, draws := d }) ∧
  (∀ (s : State) (off v : Word), off ≠ 0x18 → (off = 0x00 → v.getLsbD 0 = false) →
    hostAccess (.regWrite off v) (hostAccess (.regWrite off v) s) = hostAccess (.regWrite off v) s) ∧
  (∀ (s : State) (sp : Space) (a : Word) (b : Byte),
    hostAccess (.memWrite sp a b) (hostAccess (.memWrite sp a b) s) = hostAccess (.memWrite sp a b) s)

/-- R272: `irq` is IE ∧ DONE: a completion raises it exactly when IE = 1; clearing DONE, the next issue,
clearing IE and either reset lower it. -/
def Obligations.InterruptFollowsDoneAndEnable : Prop :=
  (∀ s : State, irq s = (s.ie && s.done)) ∧
  (∀ (s u t : State), s.busy = true → EngineTurn s u → step s = .next t → irq t = s.ie) ∧
  (∀ (s : State) (v : Word), v.getLsbD 1 = true → irq (hostAccess (.regWrite 0x04 v) s) = false) ∧
  (∀ (s : State) (v : Word), s.busy = false → irq (hostAccess (.regWrite 0x18 v) s) = false) ∧
  (∀ (s : State) (v : Word), v.getLsbD 1 = false → irq (hostAccess (.regWrite 0x00 v) s) = false) ∧
  (∀ (s : State) (v : Word), v.getLsbD 0 = true → irq (hostAccess (.regWrite 0x00 v) s) = false) ∧
  (∀ s : State, irq (powerOnReset s) = false)

/-! ## Reset -/

/-- R290, R225, R33: both resets give every register its reset value, and the parameters are kept. That a
reset keeps the coming events and the replies is the model's choice (DEDUCED, log entry 16; the two lists are
the model's own, log entries 1 and 9), as is the power-on reset's place among the events. -/
def Obligations.ResetsRestoreEveryRegister : Prop :=
  RegistersReset State.reset ∧
  (∀ (s : State) (v : Word), v.getLsbD 0 = true →
    ∃ t, hostAccess (.regWrite 0x00 v) s = t ∧ RegistersReset t ∧ readRegister t 0x00 = 0 ∧
      readRegister t 0x04 = 0 ∧ t.params = s.params ∧ t.events = s.events ∧ t.replies = s.replies) ∧
  (∀ (s : State) (rest : List Event), s.events = .powerOn :: rest →
    ∃ t, step s = .next t ∧ RegistersReset t ∧ readRegister t 0x00 = 0 ∧
      readRegister t 0x04 = 0 ∧ t.params = s.params ∧ t.events = rest ∧ t.replies = s.replies)

/-- R292, R293: a soft reset of an idle block keeps all four memories; of a running one it makes the
destination of a CONVERT, SCAN or PACKB unspecified and keeps the rest; the power-on reset makes every byte of
all four unspecified. The model's form of "unspecified" is the free value of a fresh draw (log entries 5, 7, 16). -/
def Obligations.SoftResetKeepsOrForgetsMemories : Prop :=
  (∀ (s : State) (v : Word), v.getLsbD 0 = true →
    ∃ t, hostAccess (.regWrite 0x00 v) s = t ∧ t.frame = s.frame ∧
      (s.busy = false → t.pix = s.pix ∧ t.sym = s.sym ∧ t.out = s.out) ∧
      (s.busy = true →
        (if s.cur.word = 0x00000001 then ∀ a, peek t .pix a = Config.freeByte s.draws .pix a
          else t.pix = s.pix) ∧
        (if s.cur.word = 0x00000003 then
            ∀ a, (peek t .sym a).toNat = (Config.freeByte s.draws .sym a).toNat % 4
          else t.sym = s.sym) ∧
        (if s.cur.word = 0x00000004 ∨ s.cur.word = 0x00000104 then
            ∀ a, peek t .out a = Config.freeByte s.draws .out a
          else t.out = s.out))) ∧
  (∀ (s : State) (rest : List Event), s.events = .powerOn :: rest →
    ∃ t, step s = .next t ∧ s.draws < t.draws ∧ ∀ a,
      peek t .frame a = Config.freeByte s.draws .frame a ∧
      peek t .pix a = Config.freeByte s.draws .pix a ∧
      (peek t .sym a).toNat = (Config.freeByte s.draws .sym a).toNat % 4 ∧
      peek t .out a = Config.freeByte s.draws .out a)

/-- R50 to R53: who can change each memory: FRAME the host, PIX a CONVERT, SYM a SCAN or the host, OUT a
PACKB (their completion or their abort), and the power-on reset each of them. -/
def Obligations.OnlyTheirWritersChangeMemories : Prop :=
  ∀ s t : State, step s = .next t →
    (t.frame ≠ s.frame → ∃ rest, s.events = .powerOn :: rest ∨
      ∃ a b, s.events = .host (.memWrite .frame a b) :: rest ∧ s.busy = false) ∧
    (t.pix ≠ s.pix → (∃ rest, s.events = .powerOn :: rest) ∨ (s.busy = true ∧ s.cur.word = 0x00000001)) ∧
    (t.sym ≠ s.sym → (∃ rest, s.events = .powerOn :: rest ∨
      ∃ a b, s.events = .host (.memWrite .sym a b) :: rest ∧ s.busy = false) ∨
        (s.busy = true ∧ s.cur.word = 0x00000003)) ∧
    (t.out ≠ s.out → (∃ rest, s.events = .powerOn :: rest) ∨
      (s.busy = true ∧ (s.cur.word = 0x00000004 ∨ s.cur.word = 0x00000104)))

/-! ## The whole machine -/

/-- The invariant holds right after reset. -/
def Obligations.ResetMeetsTheInvariant : Prop := Inv State.reset

/-- Every step keeps the invariant (legal dimensions and a written matrix under PV, memories in canonical
form inside their spaces, counts within their memories, no outcome shown while a command runs). -/
def Obligations.StepKeepsTheInvariant : Prop :=
  ∀ s t : State, Inv s → step s = .next t → Inv t

/-- R274: no error stops the block: every state steps on. -/
def Obligations.EveryStateStepsOn : Prop := ∀ s : State, StepsOn s

/-- R47, R31: the constants never change, and no command changes ARG0, ARG1 or IE: only the host and a
reset do. -/
def Obligations.ConstantsAndOperandsAreTheHosts : Prop :=
  ∀ s t : State, step s = .next t →
    t.params = s.params ∧
    ((s.events = [] ∨ ∃ rest, s.events = .engine :: rest) →
      t.arg0 = s.arg0 ∧ t.arg1 = s.arg1 ∧ t.ie = s.ie)

/-- R304: the completion is always eventually taken: whatever is queued, a running command has completed
or been reset within one step more than there are events. -/
def Obligations.RunningCommandEndsWithinTheQueue : Prop :=
  ∀ s : State, s.busy = true →
    ∃ k t, k ≤ s.events.length + 1 ∧ Sys2Proof.core.run k s = .next t ∧ t.busy = false

/-- R304, program P10 of 95_test_vectors.md: both orders of a write racing a completion are runs. -/
def Obligations.BothOrdersOfTheRaceAreRuns : Prop :=
  (∃ t, Sys2Proof.core.run 3 { State.reset with
      events := [.host (.regWrite 0x18 0), .engine, .host (.regWrite 0x08 8)] } = .next t ∧
    readRegister t 0x08 = 8 ∧ readRegister t 0x04 = 0x02) ∧
  (∃ t, Sys2Proof.core.run 3 { State.reset with
      events := [.host (.regWrite 0x18 0), .host (.regWrite 0x08 8), .engine] } = .next t ∧
    readRegister t 0x08 = 0 ∧ readRegister t 0x04 = 0x0A)

/-! ## The host sequence -/

/-- R118, R95, R88: running a pseudo-instruction's host events step by step, with any number of STATUS
polls before the completion, leaves the block as the pseudo-instruction's meaning does. -/
def Obligations.PseudoInstructionsAreTheirEvents : Prop :=
  ∀ (p : Pseudo) (polls : Nat) (rest : List Event) (s : State), s.events = p.events polls ++ rest →
    ∃ t, Sys2Proof.core.run (p.events polls).length s = .next t ∧ t.events = rest ∧
      blockOf t = blockOf (runPseudo p s)

/-- R236, R237, R239 to R242, R245: on a frame of legal dimensions the sequence returns what the five
steps give for the symbol stream of the frame's cells, the first failing step deciding. -/
def Obligations.DecodeFollowsTheFiveSteps : Prop :=
  ∀ (frame : List Byte) (W H : Dim) (s : State), s.params.Legal → s.busy = false →
    LegalDims s.params W.toNat H.toNat → frame.length = 3 * (W.toNat * H.toNat) / 2 →
    (decodeFrame frame W H s).1 =
      protocolResult (W.toNat / 4 * (H.toNat / 4))
        (frameSymbol s.params.cscGBinary64 frame W.toNat H.toNat)

/-- R246, the spec's own inference from R241: with the header's symbols intact, a frame whose body differs from a decoded one in exactly one
byte gives ChecksumMismatch. -/
def Obligations.OneChangedBodyByteIsDetected : Prop :=
  ∀ (frame frame' : List Byte) (W H : Dim) (s : State) (body : List Byte) (m : Nat),
    s.params.Legal → s.busy = false → LegalDims s.params W.toNat H.toNat →
    frame.length = 3 * (W.toNat * H.toNat) / 2 → frame'.length = 3 * (W.toNat * H.toNat) / 2 →
    let x := frameSymbol s.params.cscGBinary64 frame W.toNat H.toNat
    let x' := frameSymbol s.params.cscGBinary64 frame' W.toNat H.toNat
    protocolResult (W.toNat / 4 * (H.toNat / 4)) x = .ok body → m < body.length →
    (∀ q, q < 64 → x' q = x q) →
    (∀ j, j < body.length → j ≠ m → streamByte x' (64 + 4 * j) = streamByte x (64 + 4 * j)) →
    streamByte x' (64 + 4 * m) ≠ streamByte x (64 + 4 * m) →
    (decodeFrame frame W H s).1 = .ok body ∧ (decodeFrame frame' W H s).1 = .checksumMismatch

/-- R235: the decode is a pure function of the frame bytes, the width and the height: from any two idle
states of a block, with the same constants, the result is the same. -/
def Obligations.DecodeIsAPureFunction : Prop :=
  ∀ (frame : List Byte) (W H : Dim) (s t : State), s.params.Legal → s.params = t.params →
    s.busy = false → t.busy = false → frame.length = 3 * (W.toNat * H.toNat) / 2 →
    (decodeFrame frame W H s).1 = (decodeFrame frame W H t).1

/-- R243: with legal dimensions and at least 64 cells the sequence never ends with OutOfBounds, nor with
a hardware error. -/
def Obligations.RoomForTheHeaderIsNeverOutOfBounds : Prop :=
  ∀ (frame : List Byte) (W H : Dim) (s : State), s.params.Legal → s.busy = false →
    LegalDims s.params W.toNat H.toNat → 64 ≤ W.toNat / 4 * (H.toNat / 4) →
    (decodeFrame frame W H s).1 ≠ .outOfBounds ∧
    ∀ e, (decodeFrame frame W H s).1 ≠ .hardwareError e

/-- R245, R237: illegal dimensions give HardwareError(2); a legal frame of fewer than 16 cells gives
OutOfBounds at MAGIC, whatever its bytes. -/
def Obligations.FramesTooSmallForTheMagic : Prop :=
  ∀ (frame : List Byte) (W H : Dim) (s : State), s.params.Legal → s.busy = false →
    (¬ LegalDims s.params W.toNat H.toNat → (decodeFrame frame W H s).1 = .hardwareError 2) ∧
    (LegalDims s.params W.toNat H.toNat → W.toNat / 4 * (H.toNat / 4) < 16 →
      (decodeFrame frame W H s).1 = .outOfBounds)

/-- R240: reading the body in chunks of any legal size gives the bytes and the sum that any other does. The
loop's fuel, one round for each symbol of the range, is the model's (log entry 19). -/
def Obligations.BodyChunkingChangesNothing : Prop :=
  ∀ (s : State) (K L p r : Nat), s.busy = false → s.pv = true → s.params.Legal →
    4 ≤ K → K % 4 = 0 → K ≤ s.params.symDepth → 4 ≤ L → L % 4 = 0 → L ≤ s.params.symDepth →
    r % 4 = 0 → p + r ≤ s.width.toNat / 4 * (s.height.toNat / 4) →
    ∃ body : List Byte, ∃ sum : Word, body.length = r / 4 ∧
      (readBody K r p r [] 0 s).1 = .ok (body, sum) ∧ (readBody L r p r [] 0 s).1 = .ok (body, sum)
end

