-- ==== Sys2Proof/Laws/State.lean ====
section
/-! SUPPORT. What each field of the state is after each named update: one lemma per field per update. -/

namespace Sys2Proof.Laws

open Sys2Proof.Machine

section succeed

variable (s : State)

@[simp] theorem succeed_params : (succeed s).params = s.params := rfl
@[simp] theorem succeed_ie : (succeed s).ie = s.ie := rfl
@[simp] theorem succeed_busy : (succeed s).busy = false := rfl
@[simp] theorem succeed_done : (succeed s).done = true := rfl
@[simp] theorem succeed_err : (succeed s).err = s.err := rfl
@[simp] theorem succeed_lost : (succeed s).lost = s.lost := rfl
@[simp] theorem succeed_pv : (succeed s).pv = s.pv := rfl
@[simp] theorem succeed_errcode : (succeed s).errcode = .none := rfl
@[simp] theorem succeed_width : (succeed s).width = s.width := rfl
@[simp] theorem succeed_height : (succeed s).height = s.height := rfl
@[simp] theorem succeed_arg0 : (succeed s).arg0 = s.arg0 := rfl
@[simp] theorem succeed_arg1 : (succeed s).arg1 = s.arg1 := rfl
@[simp] theorem succeed_result : (succeed s).result = s.result := rfl
@[simp] theorem succeed_bsum : (succeed s).bsum = s.bsum := rfl
@[simp] theorem succeed_symcount : (succeed s).symcount = s.symcount := rfl
@[simp] theorem succeed_outcount : (succeed s).outcount = s.outcount := rfl
@[simp] theorem succeed_cur : (succeed s).cur = s.cur := rfl
@[simp] theorem succeed_frame : (succeed s).frame = s.frame := rfl
@[simp] theorem succeed_pix : (succeed s).pix = s.pix := rfl
@[simp] theorem succeed_sym : (succeed s).sym = s.sym := rfl
@[simp] theorem succeed_out : (succeed s).out = s.out := rfl
@[simp] theorem succeed_events : (succeed s).events = s.events := rfl
@[simp] theorem succeed_replies : (succeed s).replies = s.replies := rfl
@[simp] theorem succeed_draws : (succeed s).draws = s.draws := rfl

end succeed

section takeError

variable (e : ErrCode) (s : State)

@[simp] theorem takeError_params : (takeError e s).params = s.params := rfl
@[simp] theorem takeError_ie : (takeError e s).ie = s.ie := rfl
@[simp] theorem takeError_busy : (takeError e s).busy = false := rfl
@[simp] theorem takeError_done : (takeError e s).done = true := rfl
@[simp] theorem takeError_err : (takeError e s).err = true := rfl
@[simp] theorem takeError_lost : (takeError e s).lost = s.lost := rfl
@[simp] theorem takeError_pv : (takeError e s).pv = s.pv := rfl
@[simp] theorem takeError_errcode : (takeError e s).errcode = e := rfl
@[simp] theorem takeError_width : (takeError e s).width = s.width := rfl
@[simp] theorem takeError_height : (takeError e s).height = s.height := rfl
@[simp] theorem takeError_arg0 : (takeError e s).arg0 = s.arg0 := rfl
@[simp] theorem takeError_arg1 : (takeError e s).arg1 = s.arg1 := rfl
@[simp] theorem takeError_result : (takeError e s).result = s.result := rfl
@[simp] theorem takeError_bsum : (takeError e s).bsum = s.bsum := rfl
@[simp] theorem takeError_symcount : (takeError e s).symcount = s.symcount := rfl
@[simp] theorem takeError_outcount : (takeError e s).outcount = s.outcount := rfl
@[simp] theorem takeError_cur : (takeError e s).cur = s.cur := rfl
@[simp] theorem takeError_frame : (takeError e s).frame = s.frame := rfl
@[simp] theorem takeError_pix : (takeError e s).pix = s.pix := rfl
@[simp] theorem takeError_sym : (takeError e s).sym = s.sym := rfl
@[simp] theorem takeError_out : (takeError e s).out = s.out := rfl
@[simp] theorem takeError_events : (takeError e s).events = s.events := rfl
@[simp] theorem takeError_replies : (takeError e s).replies = s.replies := rfl
@[simp] theorem takeError_draws : (takeError e s).draws = s.draws := rfl

end takeError

section loseWrite

variable (s : State)

@[simp] theorem loseWrite_params : (loseWrite s).params = s.params := rfl
@[simp] theorem loseWrite_ie : (loseWrite s).ie = s.ie := rfl
@[simp] theorem loseWrite_busy : (loseWrite s).busy = s.busy := rfl
@[simp] theorem loseWrite_done : (loseWrite s).done = s.done := rfl
@[simp] theorem loseWrite_err : (loseWrite s).err = s.err := rfl
@[simp] theorem loseWrite_lost : (loseWrite s).lost = true := rfl
@[simp] theorem loseWrite_pv : (loseWrite s).pv = s.pv := rfl
@[simp] theorem loseWrite_errcode : (loseWrite s).errcode = s.errcode := rfl
@[simp] theorem loseWrite_width : (loseWrite s).width = s.width := rfl
@[simp] theorem loseWrite_height : (loseWrite s).height = s.height := rfl
@[simp] theorem loseWrite_arg0 : (loseWrite s).arg0 = s.arg0 := rfl
@[simp] theorem loseWrite_arg1 : (loseWrite s).arg1 = s.arg1 := rfl
@[simp] theorem loseWrite_result : (loseWrite s).result = s.result := rfl
@[simp] theorem loseWrite_bsum : (loseWrite s).bsum = s.bsum := rfl
@[simp] theorem loseWrite_symcount : (loseWrite s).symcount = s.symcount := rfl
@[simp] theorem loseWrite_outcount : (loseWrite s).outcount = s.outcount := rfl
@[simp] theorem loseWrite_cur : (loseWrite s).cur = s.cur := rfl
@[simp] theorem loseWrite_frame : (loseWrite s).frame = s.frame := rfl
@[simp] theorem loseWrite_pix : (loseWrite s).pix = s.pix := rfl
@[simp] theorem loseWrite_sym : (loseWrite s).sym = s.sym := rfl
@[simp] theorem loseWrite_out : (loseWrite s).out = s.out := rfl
@[simp] theorem loseWrite_events : (loseWrite s).events = s.events := rfl
@[simp] theorem loseWrite_replies : (loseWrite s).replies = s.replies := rfl
@[simp] theorem loseWrite_draws : (loseWrite s).draws = s.draws := rfl

end loseWrite

section clearStatus

variable (v : Word) (s : State)

@[simp] theorem clearStatus_params : (clearStatus v s).params = s.params := rfl
@[simp] theorem clearStatus_ie : (clearStatus v s).ie = s.ie := rfl
@[simp] theorem clearStatus_busy : (clearStatus v s).busy = s.busy := rfl
@[simp] theorem clearStatus_done : (clearStatus v s).done = (s.done && !v.getLsbD 1) := rfl
@[simp] theorem clearStatus_err : (clearStatus v s).err = (s.err && !v.getLsbD 2) := rfl
@[simp] theorem clearStatus_lost : (clearStatus v s).lost = (s.lost && !v.getLsbD 3) := rfl
@[simp] theorem clearStatus_pv : (clearStatus v s).pv = s.pv := rfl
@[simp] theorem clearStatus_errcode : (clearStatus v s).errcode = s.errcode := rfl
@[simp] theorem clearStatus_width : (clearStatus v s).width = s.width := rfl
@[simp] theorem clearStatus_height : (clearStatus v s).height = s.height := rfl
@[simp] theorem clearStatus_arg0 : (clearStatus v s).arg0 = s.arg0 := rfl
@[simp] theorem clearStatus_arg1 : (clearStatus v s).arg1 = s.arg1 := rfl
@[simp] theorem clearStatus_result : (clearStatus v s).result = s.result := rfl
@[simp] theorem clearStatus_bsum : (clearStatus v s).bsum = s.bsum := rfl
@[simp] theorem clearStatus_symcount : (clearStatus v s).symcount = s.symcount := rfl
@[simp] theorem clearStatus_outcount : (clearStatus v s).outcount = s.outcount := rfl
@[simp] theorem clearStatus_cur : (clearStatus v s).cur = s.cur := rfl
@[simp] theorem clearStatus_frame : (clearStatus v s).frame = s.frame := rfl
@[simp] theorem clearStatus_pix : (clearStatus v s).pix = s.pix := rfl
@[simp] theorem clearStatus_sym : (clearStatus v s).sym = s.sym := rfl
@[simp] theorem clearStatus_out : (clearStatus v s).out = s.out := rfl
@[simp] theorem clearStatus_events : (clearStatus v s).events = s.events := rfl
@[simp] theorem clearStatus_replies : (clearStatus v s).replies = s.replies := rfl
@[simp] theorem clearStatus_draws : (clearStatus v s).draws = s.draws := rfl

end clearStatus

section issue

variable (w : Word) (s : State)

@[simp] theorem issue_params : (issue w s).params = s.params := rfl
@[simp] theorem issue_ie : (issue w s).ie = s.ie := rfl
@[simp] theorem issue_busy : (issue w s).busy = true := rfl
@[simp] theorem issue_done : (issue w s).done = false := rfl
@[simp] theorem issue_err : (issue w s).err = s.err := rfl
@[simp] theorem issue_lost : (issue w s).lost = s.lost := rfl
@[simp] theorem issue_pv : (issue w s).pv = s.pv := rfl
@[simp] theorem issue_errcode : (issue w s).errcode = .none := rfl
@[simp] theorem issue_width : (issue w s).width = s.width := rfl
@[simp] theorem issue_height : (issue w s).height = s.height := rfl
@[simp] theorem issue_arg0 : (issue w s).arg0 = s.arg0 := rfl
@[simp] theorem issue_arg1 : (issue w s).arg1 = s.arg1 := rfl
@[simp] theorem issue_result : (issue w s).result = s.result := rfl
@[simp] theorem issue_bsum : (issue w s).bsum = s.bsum := rfl
@[simp] theorem issue_symcount : (issue w s).symcount = s.symcount := rfl
@[simp] theorem issue_outcount : (issue w s).outcount = s.outcount := rfl
@[simp] theorem issue_cur : (issue w s).cur = ⟨w, s.arg0, s.arg1⟩ := rfl
@[simp] theorem issue_frame : (issue w s).frame = s.frame := rfl
@[simp] theorem issue_pix : (issue w s).pix = s.pix := rfl
@[simp] theorem issue_sym : (issue w s).sym = s.sym := rfl
@[simp] theorem issue_out : (issue w s).out = s.out := rfl
@[simp] theorem issue_events : (issue w s).events = s.events := rfl
@[simp] theorem issue_replies : (issue w s).replies = s.replies := rfl
@[simp] theorem issue_draws : (issue w s).draws = s.draws := rfl

end issue

section pushReply

variable (r : Reply) (s : State)

@[simp] theorem pushReply_params : (pushReply r s).params = s.params := rfl
@[simp] theorem pushReply_ie : (pushReply r s).ie = s.ie := rfl
@[simp] theorem pushReply_busy : (pushReply r s).busy = s.busy := rfl
@[simp] theorem pushReply_done : (pushReply r s).done = s.done := rfl
@[simp] theorem pushReply_err : (pushReply r s).err = s.err := rfl
@[simp] theorem pushReply_lost : (pushReply r s).lost = s.lost := rfl
@[simp] theorem pushReply_pv : (pushReply r s).pv = s.pv := rfl
@[simp] theorem pushReply_errcode : (pushReply r s).errcode = s.errcode := rfl
@[simp] theorem pushReply_width : (pushReply r s).width = s.width := rfl
@[simp] theorem pushReply_height : (pushReply r s).height = s.height := rfl
@[simp] theorem pushReply_arg0 : (pushReply r s).arg0 = s.arg0 := rfl
@[simp] theorem pushReply_arg1 : (pushReply r s).arg1 = s.arg1 := rfl
@[simp] theorem pushReply_result : (pushReply r s).result = s.result := rfl
@[simp] theorem pushReply_bsum : (pushReply r s).bsum = s.bsum := rfl
@[simp] theorem pushReply_symcount : (pushReply r s).symcount = s.symcount := rfl
@[simp] theorem pushReply_outcount : (pushReply r s).outcount = s.outcount := rfl
@[simp] theorem pushReply_cur : (pushReply r s).cur = s.cur := rfl
@[simp] theorem pushReply_frame : (pushReply r s).frame = s.frame := rfl
@[simp] theorem pushReply_pix : (pushReply r s).pix = s.pix := rfl
@[simp] theorem pushReply_sym : (pushReply r s).sym = s.sym := rfl
@[simp] theorem pushReply_out : (pushReply r s).out = s.out := rfl
@[simp] theorem pushReply_events : (pushReply r s).events = s.events := rfl
@[simp] theorem pushReply_replies : (pushReply r s).replies = r :: s.replies := rfl
@[simp] theorem pushReply_draws : (pushReply r s).draws = s.draws := rfl

end pushReply

section resetRegisters

variable (s : State)

@[simp] theorem resetRegisters_params : (resetRegisters s).params = s.params := rfl
@[simp] theorem resetRegisters_ie : (resetRegisters s).ie = false := rfl
@[simp] theorem resetRegisters_busy : (resetRegisters s).busy = false := rfl
@[simp] theorem resetRegisters_done : (resetRegisters s).done = false := rfl
@[simp] theorem resetRegisters_err : (resetRegisters s).err = false := rfl
@[simp] theorem resetRegisters_lost : (resetRegisters s).lost = false := rfl
@[simp] theorem resetRegisters_pv : (resetRegisters s).pv = false := rfl
@[simp] theorem resetRegisters_errcode : (resetRegisters s).errcode = .none := rfl
@[simp] theorem resetRegisters_width : (resetRegisters s).width = 0 := rfl
@[simp] theorem resetRegisters_height : (resetRegisters s).height = 0 := rfl
@[simp] theorem resetRegisters_arg0 : (resetRegisters s).arg0 = 0 := rfl
@[simp] theorem resetRegisters_arg1 : (resetRegisters s).arg1 = 0 := rfl
@[simp] theorem resetRegisters_result : (resetRegisters s).result = 0 := rfl
@[simp] theorem resetRegisters_bsum : (resetRegisters s).bsum = 0 := rfl
@[simp] theorem resetRegisters_symcount : (resetRegisters s).symcount = 0 := rfl
@[simp] theorem resetRegisters_outcount : (resetRegisters s).outcount = 0 := rfl
@[simp] theorem resetRegisters_cur : (resetRegisters s).cur = Latch.atReset := rfl
@[simp] theorem resetRegisters_frame : (resetRegisters s).frame = s.frame := rfl
@[simp] theorem resetRegisters_pix : (resetRegisters s).pix = s.pix := rfl
@[simp] theorem resetRegisters_sym : (resetRegisters s).sym = s.sym := rfl
@[simp] theorem resetRegisters_out : (resetRegisters s).out = s.out := rfl
@[simp] theorem resetRegisters_events : (resetRegisters s).events = s.events := rfl
@[simp] theorem resetRegisters_replies : (resetRegisters s).replies = s.replies := rfl
@[simp] theorem resetRegisters_draws : (resetRegisters s).draws = s.draws := rfl

end resetRegisters

section setMem

variable (s : State) (sp : Space) (m : Mem)

@[simp] theorem setMem_params : (s.setMem sp m).params = s.params := by cases sp <;> rfl
@[simp] theorem setMem_ie : (s.setMem sp m).ie = s.ie := by cases sp <;> rfl
@[simp] theorem setMem_busy : (s.setMem sp m).busy = s.busy := by cases sp <;> rfl
@[simp] theorem setMem_done : (s.setMem sp m).done = s.done := by cases sp <;> rfl
@[simp] theorem setMem_err : (s.setMem sp m).err = s.err := by cases sp <;> rfl
@[simp] theorem setMem_lost : (s.setMem sp m).lost = s.lost := by cases sp <;> rfl
@[simp] theorem setMem_pv : (s.setMem sp m).pv = s.pv := by cases sp <;> rfl
@[simp] theorem setMem_errcode : (s.setMem sp m).errcode = s.errcode := by cases sp <;> rfl
@[simp] theorem setMem_width : (s.setMem sp m).width = s.width := by cases sp <;> rfl
@[simp] theorem setMem_height : (s.setMem sp m).height = s.height := by cases sp <;> rfl
@[simp] theorem setMem_arg0 : (s.setMem sp m).arg0 = s.arg0 := by cases sp <;> rfl
@[simp] theorem setMem_arg1 : (s.setMem sp m).arg1 = s.arg1 := by cases sp <;> rfl
@[simp] theorem setMem_result : (s.setMem sp m).result = s.result := by cases sp <;> rfl
@[simp] theorem setMem_bsum : (s.setMem sp m).bsum = s.bsum := by cases sp <;> rfl
@[simp] theorem setMem_symcount : (s.setMem sp m).symcount = s.symcount := by cases sp <;> rfl
@[simp] theorem setMem_outcount : (s.setMem sp m).outcount = s.outcount := by cases sp <;> rfl
@[simp] theorem setMem_cur : (s.setMem sp m).cur = s.cur := by cases sp <;> rfl
@[simp] theorem setMem_events : (s.setMem sp m).events = s.events := by cases sp <;> rfl
@[simp] theorem setMem_replies : (s.setMem sp m).replies = s.replies := by cases sp <;> rfl
@[simp] theorem setMem_draws : (s.setMem sp m).draws = s.draws := by cases sp <;> rfl

/-- A space reads back the contents that were put in it. -/
@[simp] theorem mem_setMem : (s.setMem sp m).mem sp = m := by cases sp <;> rfl

/-- The other spaces are untouched. -/
theorem mem_setMem_of_ne (tp : Space) (h : tp ≠ sp) : (s.setMem sp m).mem tp = s.mem tp := by
  cases sp <;> cases tp <;> first | rfl | exact absurd rfl h

end setMem

section forget

variable (s : State) (sp : Space)

@[simp] theorem forget_params : (forget sp s).params = s.params := by cases sp <;> rfl
@[simp] theorem forget_ie : (forget sp s).ie = s.ie := by cases sp <;> rfl
@[simp] theorem forget_busy : (forget sp s).busy = s.busy := by cases sp <;> rfl
@[simp] theorem forget_done : (forget sp s).done = s.done := by cases sp <;> rfl
@[simp] theorem forget_err : (forget sp s).err = s.err := by cases sp <;> rfl
@[simp] theorem forget_lost : (forget sp s).lost = s.lost := by cases sp <;> rfl
@[simp] theorem forget_pv : (forget sp s).pv = s.pv := by cases sp <;> rfl
@[simp] theorem forget_errcode : (forget sp s).errcode = s.errcode := by cases sp <;> rfl
@[simp] theorem forget_width : (forget sp s).width = s.width := by cases sp <;> rfl
@[simp] theorem forget_height : (forget sp s).height = s.height := by cases sp <;> rfl
@[simp] theorem forget_arg0 : (forget sp s).arg0 = s.arg0 := by cases sp <;> rfl
@[simp] theorem forget_arg1 : (forget sp s).arg1 = s.arg1 := by cases sp <;> rfl
@[simp] theorem forget_result : (forget sp s).result = s.result := by cases sp <;> rfl
@[simp] theorem forget_bsum : (forget sp s).bsum = s.bsum := by cases sp <;> rfl
@[simp] theorem forget_symcount : (forget sp s).symcount = s.symcount := by cases sp <;> rfl
@[simp] theorem forget_outcount : (forget sp s).outcount = s.outcount := by cases sp <;> rfl
@[simp] theorem forget_cur : (forget sp s).cur = s.cur := by cases sp <;> rfl
@[simp] theorem forget_events : (forget sp s).events = s.events := by cases sp <;> rfl
@[simp] theorem forget_replies : (forget sp s).replies = s.replies := by cases sp <;> rfl
@[simp] theorem forget_draws : (forget sp s).draws = s.draws + 1 := by cases sp <;> rfl

@[simp] theorem mem_forget : (forget sp s).mem sp = Mem.unspecified s.draws := by cases sp <;> rfl

theorem mem_forget_of_ne (tp : Space) (h : tp ≠ sp) : (forget sp s).mem tp = s.mem tp := by
  cases sp <;> cases tp <;> first | rfl | exact absurd rfl h

end forget

section memOf

variable (s : State) (sp : Space)

@[simp] theorem mem_succeed : (succeed s).mem sp = s.mem sp := by cases sp <;> rfl
@[simp] theorem mem_takeError (e : ErrCode) : (takeError e s).mem sp = s.mem sp := by cases sp <;> rfl
@[simp] theorem mem_loseWrite : (loseWrite s).mem sp = s.mem sp := by cases sp <;> rfl
@[simp] theorem mem_clearStatus (v : Word) : (clearStatus v s).mem sp = s.mem sp := by cases sp <;> rfl
@[simp] theorem mem_issue (w : Word) : (issue w s).mem sp = s.mem sp := by cases sp <;> rfl
@[simp] theorem mem_pushReply (r : Reply) : (pushReply r s).mem sp = s.mem sp := by cases sp <;> rfl
@[simp] theorem mem_resetRegisters : (resetRegisters s).mem sp = s.mem sp := by cases sp <;> rfl
@[simp] theorem peek_succeed (a : Nat) : peek (succeed s) sp a = peek s sp a := by cases sp <;> rfl
@[simp] theorem peek_takeError (e : ErrCode) (a : Nat) : peek (takeError e s) sp a = peek s sp a := by cases sp <;> rfl
@[simp] theorem peek_loseWrite (a : Nat) : peek (loseWrite s) sp a = peek s sp a := by cases sp <;> rfl
@[simp] theorem peek_clearStatus (v : Word) (a : Nat) : peek (clearStatus v s) sp a = peek s sp a := by cases sp <;> rfl
@[simp] theorem peek_issue (w : Word) (a : Nat) : peek (issue w s) sp a = peek s sp a := by cases sp <;> rfl
@[simp] theorem peek_pushReply (r : Reply) (a : Nat) : peek (pushReply r s) sp a = peek s sp a := by cases sp <;> rfl
@[simp] theorem peek_resetRegisters (a : Nat) : peek (resetRegisters s) sp a = peek s sp a := by cases sp <;> rfl

end memOf

end Sys2Proof.Laws
end

