-- ==== Sys2Proof/Laws/Exec.lean ====
section
/-! SUPPORT. One lemma per command that says everything its completion can do: take one of its errors, each with its ground, or succeed with the writes of its rule. -/

namespace Sys2Proof.Laws

open Sys2Proof.Machine

/-- What CONVERT leaves on success (R140). -/
def converted (s : State) : State :=
  succeed { s with pix := s.pix.fill (3 * (frameW s * frameH s)) (convertedByte s), pv := true }

/-- What CLASSIFY leaves on success (R160). -/
def classified (s : State) : State :=
  succeed { s with result := (classify (window s (operand0 s) (operand1 s))).1.setWidth 32 }

/-- What SCAN leaves on success (R180). -/
def scanned (s : State) : State :=
  succeed { s with
    sym := s.sym.fill (operand1 s - operand0 s) (fun k => symByte (cellSymbol s (operand0 s + k)))
    symcount := u32 (operand1 s - operand0 s) }

/-- What PACKB leaves on success (R200). -/
def packed (o : Order) (s : State) : State :=
  succeed { s with
    out := s.out.fill (operand1 s / 4) (packedByte o s (operand0 s))
    outcount := u32 (operand1 s / 4)
    bsum := u32 (sumUpTo (operand1 s / 4) (fun m => (packedByte o s (operand0 s) m).toNat)) }

/-- What PACKI leaves on success (R204). -/
def packedWord (o : Order) (s : State) : State :=
  succeed { s with result := u32 (packedInt o (operand1 s) (fun k => symAt s (operand0 s + k))) }

theorem execConvert_cases (s : State) :
    (LegalDims s.params (frameW s) (frameH s) ∧ exec .convert s = .next (converted s)) ∨
    (¬ LegalDims s.params (frameW s) (frameH s) ∧ exec .convert s = .next (takeError .badDimensions s)) := by
  show _ ∧ execConvert s = _ ∨ _ ∧ execConvert s = _
  unfold execConvert
  split
  · exact .inl ⟨‹_›, rfl⟩
  · exact .inr ⟨‹_›, rfl⟩

theorem execClassify_cases (s : State) :
    (s.pv = true ∧ operand0 s + 4 ≤ frameH s ∧ operand1 s + 4 ≤ frameW s ∧
      exec .classify s = .next (classified s)) ∨
    (s.pv = false ∧ exec .classify s = .next (takeError .noFrame s)) ∨
    (s.pv = true ∧ (frameH s < operand0 s + 4 ∨ frameW s < operand1 s + 4) ∧
      exec .classify s = .next (takeError .outOfBounds s)) := by
  simp only [exec, execClassify]
  split
  · exact .inr (.inl ⟨‹_›, rfl⟩)
  · rename_i hpv
    have hpv : s.pv = true := by simpa using hpv
    split
    · exact .inr (.inr ⟨hpv, ‹_›, rfl⟩)
    · rename_i h
      exact .inl ⟨hpv, by omega, by omega, rfl⟩

theorem execScan_cases (s : State) :
    (s.pv = true ∧ operand0 s ≤ operand1 s ∧ operand1 s - operand0 s ≤ s.params.symDepth ∧
      (operand0 s = operand1 s ∨ operand1 s ≤ cellCount s) ∧ exec .scan s = .next (scanned s)) ∨
    (s.pv = false ∧ exec .scan s = .next (takeError .noFrame s)) ∨
    (s.pv = true ∧ (operand1 s < operand0 s ∨ s.params.symDepth < operand1 s - operand0 s) ∧
      exec .scan s = .next (takeError .badRange s)) ∨
    (s.pv = true ∧ operand0 s < operand1 s ∧ operand1 s - operand0 s ≤ s.params.symDepth ∧
      cellCount s < operand1 s ∧ exec .scan s = .next (takeError .outOfBounds s)) := by
  simp only [exec, execScan]
  split
  · exact .inr (.inl ⟨‹_›, rfl⟩)
  · rename_i hpv
    have hpv : s.pv = true := by simpa using hpv
    split
    · exact .inr (.inr (.inl ⟨hpv, .inl ‹_›, rfl⟩))
    · split
      · exact .inr (.inr (.inl ⟨hpv, .inr ‹_›, rfl⟩))
      · split
        · exact .inr (.inr (.inr ⟨hpv, by omega, by omega, by omega, rfl⟩))
        · exact .inl ⟨hpv, by omega, by omega, by omega, rfl⟩

theorem execPackb_cases (o : Order) (s : State) :
    (operand1 s % 4 = 0 ∧ operand0 s + operand1 s ≤ s.symcount.toNat ∧
      exec (.packb o) s = .next (packed o s)) ∨
    (operand1 s % 4 ≠ 0 ∧ exec (.packb o) s = .next (takeError .badLength s)) ∨
    (operand1 s % 4 = 0 ∧ s.symcount.toNat < operand0 s + operand1 s ∧
      exec (.packb o) s = .next (takeError .badRange s)) := by
  simp only [exec, execPackb, packBytes]
  split
  · exact .inr (.inl ⟨‹_›, rfl⟩)
  · rename_i h
    have h : operand1 s % 4 = 0 := by omega
    split
    · exact .inr (.inr ⟨h, ‹_›, rfl⟩)
    · exact .inl ⟨h, by omega, rfl⟩

theorem execPacki_cases (o : Order) (s : State) :
    (operand0 s + operand1 s ≤ s.symcount.toNat ∧ exec (.packi o) s = .next (packedWord o s)) ∨
    (s.symcount.toNat < operand0 s + operand1 s ∧ exec (.packi o) s = .next (takeError .badRange s)) := by
  simp only [exec, execPacki, packInteger]
  split
  · exact .inr ⟨‹_›, rfl⟩
  · exact .inl ⟨by omega, rfl⟩

/-- Every command completes: with success, by the writes of its rule, or by taking an error. -/
theorem exec_cases (i : Instr) (s : State) :
    (∃ e, e ≠ .none ∧ exec i s = .next (takeError e s)) ∨
    (i = .nop ∧ exec i s = .next (succeed s)) ∨
    (i = .convert ∧ LegalDims s.params (frameW s) (frameH s) ∧ exec i s = .next (converted s)) ∨
    (i = .classify ∧ exec i s = .next (classified s)) ∨
    (i = .scan ∧ operand0 s ≤ operand1 s ∧ operand1 s - operand0 s ≤ s.params.symDepth ∧
      exec i s = .next (scanned s)) ∨
    (∃ o, i = .packb o ∧ operand0 s + operand1 s ≤ s.symcount.toNat ∧ exec i s = .next (packed o s)) ∨
    (∃ o, i = .packi o ∧ exec i s = .next (packedWord o s)) := by
  cases i with
  | nop => exact .inr (.inl ⟨rfl, rfl⟩)
  | convert =>
    obtain ⟨h, e⟩ | ⟨-, e⟩ := execConvert_cases s
    · exact .inr (.inr (.inl ⟨rfl, h, e⟩))
    · exact .inl ⟨_, by decide, e⟩
  | classify =>
    obtain ⟨-, -, -, e⟩ | ⟨-, e⟩ | ⟨-, -, e⟩ := execClassify_cases s
    · exact .inr (.inr (.inr (.inl ⟨rfl, e⟩)))
    · exact .inl ⟨_, by decide, e⟩
    · exact .inl ⟨_, by decide, e⟩
  | scan =>
    obtain ⟨-, h1, h2, -, e⟩ | ⟨-, e⟩ | ⟨-, -, e⟩ | ⟨-, -, -, -, e⟩ := execScan_cases s
    · exact .inr (.inr (.inr (.inr (.inl ⟨rfl, h1, h2, e⟩))))
    · exact .inl ⟨_, by decide, e⟩
    · exact .inl ⟨_, by decide, e⟩
    · exact .inl ⟨_, by decide, e⟩
  | packb o =>
    obtain ⟨-, h, e⟩ | ⟨-, e⟩ | ⟨-, -, e⟩ := execPackb_cases o s
    · exact .inr (.inr (.inr (.inr (.inr (.inl ⟨o, rfl, h, e⟩)))))
    · exact .inl ⟨_, by decide, e⟩
    · exact .inl ⟨_, by decide, e⟩
  | packi o =>
    obtain ⟨-, e⟩ | ⟨-, e⟩ := execPacki_cases o s
    · exact .inr (.inr (.inr (.inr (.inr (.inr ⟨o, rfl, e⟩)))))
    · exact .inl ⟨_, by decide, e⟩

/-- No command stops the block. -/
theorem exec_next (i : Instr) (s : State) : ∃ t, exec i s = .next t := by
  obtain ⟨e, -, h⟩ | ⟨-, h⟩ | ⟨-, -, h⟩ | ⟨-, h⟩ | ⟨-, -, -, h⟩ | ⟨o, -, -, h⟩ | ⟨o, -, h⟩ := exec_cases i s <;>
    exact ⟨_, h⟩

end Sys2Proof.Laws
end

