-- ==== Sys2Proof/Laws/Memory.lean ====
section
/-! SUPPORT. Reading after writing, and that every memory operation keeps the canonical form. -/

namespace Sys2Proof.Laws

open Sys2Proof.Machine

/-- Reading the address just written gives the byte written. -/
@[simp] theorem cellAt_putCell_self (l : List Host.Cell) (a : Nat) (b : Byte) :
    cellAt (putCell l a b) a = some b := by
  induction l with
  | nil => simp [putCell, cellAt]
  | cons c rest ih =>
    obtain ⟨k, x⟩ := c
    simp only [putCell]
    split
    · simp [cellAt]
    · split
      · simp [cellAt]
      · rename_i h; simp [cellAt, Ne.symm h, ih]

/-- A write leaves every other address alone. -/
theorem cellAt_putCell_of_ne (l : List Host.Cell) (a x : Nat) (b : Byte) (h : x ≠ a) :
    cellAt (putCell l a b) x = cellAt l x := by
  induction l with
  | nil => simp [putCell, cellAt, Ne.symm h]
  | cons c rest ih =>
    obtain ⟨k, y⟩ := c
    simp only [putCell]
    split
    · simp [cellAt, Ne.symm h]
    · split
      · rename_i hk; subst hk; simp [cellAt, Ne.symm h]
      · simp [cellAt, ih]

/-- Which addresses are listed after a write. -/
theorem mem_putCell {l : List Host.Cell} {a : Nat} {b : Byte} {c : Host.Cell} (h : c ∈ putCell l a b) :
    c = (a, b) ∨ c ∈ l := by
  induction l with
  | nil => simpa [putCell] using h
  | cons d rest ih =>
    obtain ⟨k, y⟩ := d
    simp only [putCell] at h
    split at h
    · simpa using h
    · split at h
      · rcases List.mem_cons.mp h with h | h
        · exact .inl h
        · exact .inr (List.mem_cons_of_mem _ h)
      · rcases List.mem_cons.mp h with h | h
        · exact .inr (h ▸ List.mem_cons_self)
        · exact (ih h).imp_right (List.mem_cons_of_mem _)

/-- A write keeps addresses strictly rising. -/
theorem putCell_rising (l : List Host.Cell) (a : Nat) (b : Byte)
    (h : (l.map Prod.fst).Pairwise (· < ·)) : ((putCell l a b).map Prod.fst).Pairwise (· < ·) := by
  induction l with
  | nil => simp [putCell]
  | cons c rest ih =>
    obtain ⟨k, y⟩ := c
    simp only [List.map_cons, List.pairwise_cons] at h
    simp only [putCell]
    split
    · rename_i hlt
      simp only [List.map_cons, List.pairwise_cons, List.mem_cons]
      refine ⟨?_, h⟩
      rintro x (rfl | hx)
      · exact hlt
      · exact hlt.trans (h.1 x hx)
    · split
      · rename_i _ heq
        subst heq
        simpa using h
      · rename_i hlt hne
        simp only [List.map_cons, List.pairwise_cons]
        refine ⟨?_, ih h.2⟩
        intro x hx
        obtain ⟨c, hc, rfl⟩ := List.mem_map.mp hx
        rcases mem_putCell hc with rfl | hc
        · show k < a; omega
        · exact h.1 _ (List.mem_map_of_mem hc)

/-- The list `(0, f 0), …, (n − 1, f (n − 1))` holds exactly the addresses below `n`. -/
theorem cellAt_range_append (n : Nat) (f : Nat → Byte) (l : List Host.Cell) (a : Nat) :
    cellAt ((List.range n).map (fun k => (k, f k)) ++ l) a = if a < n then some (f a) else cellAt l a := by
  induction n generalizing l with
  | zero => simp
  | succ n ih =>
    rw [List.range_succ, List.map_append, List.append_assoc, ih]
    by_cases h : a < n
    · simp [h, Nat.lt_succ_of_lt h]
    · by_cases h2 : a = n
      · subst h2; simp [cellAt]
      · have : ¬ a < n + 1 := by omega
        simp [h, this, cellAt, Ne.symm h2]

/-- Dropping the addresses below `n` loses no other. -/
theorem cellAt_filter_ge (l : List Host.Cell) (n a : Nat) (h : n ≤ a) :
    cellAt (l.filter (fun c => n ≤ c.1)) a = cellAt l a := by
  induction l with
  | nil => rfl
  | cons c rest ih =>
    obtain ⟨k, y⟩ := c
    by_cases hk : n ≤ k
    · simp [hk, cellAt, ih]
    · have : k ≠ a := by omega
      simp [hk, cellAt, ih, this]

/-- What `fill` lists at an address: everything it can do. -/
theorem cellAt_fill (m : Mem) (n : Nat) (f : Nat → Byte) (a : Nat) :
    cellAt (m.fill n f).cells a = if a < n then some (f a) else cellAt m.cells a := by
  show cellAt (_ ++ _) a = _
  rw [cellAt_range_append]
  split
  · rfl
  · exact cellAt_filter_ge _ _ _ (by omega)

/-- A byte below `n` after `fill`. -/
theorem byteAt_fill_lt (m : Mem) (sp : Space) (n : Nat) (f : Nat → Byte) (a : Nat) (h : a < n) :
    (m.fill n f).byteAt sp a = narrow sp (f a) := by
  simp [Mem.byteAt, cellAt_fill, h]

/-- `fill` leaves every byte from `n` on alone. -/
theorem byteAt_fill_ge (m : Mem) (sp : Space) (n : Nat) (f : Nat → Byte) (a : Nat) (h : n ≤ a) :
    (m.fill n f).byteAt sp a = m.byteAt sp a := by
  have h : ¬ a < n := by omega
  simp only [Mem.byteAt, cellAt_fill, h, if_false]
  rfl

/-- The two bits kept are kept again. -/
@[simp] theorem narrow_narrow (sp : Space) (b : Byte) : narrow sp (narrow sp b) = narrow sp b := by
  cases sp <;> simp [narrow, BitVec.and_assoc]

/-- Reading back a byte just stored: narrowed as the space holds it. -/
@[simp] theorem byteAt_put_self (m : Mem) (sp : Space) (a : Nat) (b : Byte) :
    (m.put sp a b).byteAt sp a = narrow sp b := by
  simp [Mem.byteAt, Mem.put]

/-- A store leaves every other byte alone. -/
theorem byteAt_put_of_ne (m : Mem) (sp : Space) (a x : Nat) (b : Byte) (h : x ≠ a) :
    (m.put sp a b).byteAt sp x = m.byteAt sp x := by
  simp [Mem.byteAt, Mem.put, cellAt_putCell_of_ne _ _ _ _ h, Mem.unlisted]

/-- A store keeps the canonical form. -/
theorem put_wf (m : Mem) (sp : Space) (a : Nat) (b : Byte) (h : m.wf) : (m.put sp a b).wf :=
  putCell_rising _ _ _ h

/-- `fill` keeps the canonical form. -/
theorem fill_wf (m : Mem) (n : Nat) (f : Nat → Byte) (h : m.wf) : (m.fill n f).wf := by
  have hmap : ((m.fill n f).cells.map Prod.fst) = List.range n ++ (m.cells.filter (fun c => n ≤ c.1)).map Prod.fst := by
    simp [Mem.fill, Function.comp_def]
  rw [Mem.wf, hmap, List.pairwise_append]
  refine ⟨List.pairwise_lt_range, ?_, ?_⟩
  · exact h.sublist (List.Sublist.map _ List.filter_sublist)
  · intro x hx y hy
    obtain ⟨c, hc, rfl⟩ := List.mem_map.mp hy
    have := (List.mem_filter.mp hc).2
    have hx := List.mem_range.mp hx
    simp only [decide_eq_true_eq] at this
    omega

/-- A memory with nothing listed is in canonical form. -/
theorem unspecified_wf (k : Nat) : (Mem.unspecified k).wf := List.Pairwise.nil

/-- The memories of the reset state are in canonical form. -/
theorem reset_mem_wf (sp : Space) : (State.reset.mem sp).wf := by cases sp <;> exact List.Pairwise.nil

/-- A memory in which everything is unspecified is in order. -/
theorem MemOk_unspecified (p : Params) (sp : Space) (k d : Nat) (h : k < d) : MemOk p sp (Mem.unspecified k) d where
  wf := unspecified_wf k
  bounded := by simp [Mem.unspecified]
  narrowed := by simp [Mem.unspecified]
  fresh := h

/-- A store inside the space keeps the memory in order. -/
theorem MemOk_put {p : Params} {sp : Space} {m : Mem} {d : Nat} (h : MemOk p sp m d) (a : Nat) (b : Byte)
    (ha : a < p.extent sp) : MemOk p sp (m.put sp a b) d where
  wf := put_wf _ _ _ _ h.wf
  bounded := fun _ hc => (mem_putCell hc).elim (fun e => e ▸ ha) (h.bounded _)
  narrowed := fun _ hc => (mem_putCell hc).elim (fun e => e ▸ narrow_narrow sp b) (h.narrowed _)
  fresh := h.fresh

/-- A `fill` inside the space, with bytes as narrow as the space holds, keeps the memory in order. -/
theorem MemOk_fill {p : Params} {sp : Space} {m : Mem} {d : Nat} (h : MemOk p sp m d) (n : Nat) (f : Nat → Byte)
    (hn : n ≤ p.extent sp) (hf : ∀ a, narrow sp (f a) = f a) : MemOk p sp (m.fill n f) d := by
  have hmem : ∀ c ∈ (m.fill n f).cells, (c.1 < n ∧ c.2 = f c.1) ∨ c ∈ m.cells := by
    intro c hc
    rcases List.mem_append.mp hc with hc | hc
    · obtain ⟨k, hk, rfl⟩ := List.mem_map.mp hc
      exact .inl ⟨List.mem_range.mp hk, rfl⟩
    · exact .inr (List.mem_filter.mp hc).1
  exact
    { wf := fill_wf _ _ _ h.wf
      bounded := fun c hc => (hmem c hc).elim (fun e => by omega) (h.bounded c)
      narrowed := fun c hc => (hmem c hc).elim (fun e => by rw [e.2, hf]) (h.narrowed c)
      fresh := h.fresh }

/-- More draws used up leave a memory in order. -/
theorem MemOk_mono {p : Params} {sp : Space} {m : Mem} {d d' : Nat} (h : MemOk p sp m d) (hd : d ≤ d') :
    MemOk p sp m d' :=
  { h with fresh := Nat.lt_of_lt_of_le h.fresh hd }

end Sys2Proof.Laws
end

