-- ==== Sys2Proof/Laws/Step.lean ====
section
/-! SUPPORT. What the host's accesses, the engine's turn and a step can do. -/

namespace Sys2Proof.Laws

open Sys2Proof.Machine

/-- Every register stands at its own offset. -/
@[simp] theorem regAt_offset (r : Reg) : regAt r.offset = some r := by cases r <;> rfl

/-- A read at a register's offset gives what the register reads as. -/
@[simp] theorem readRegister_offset (s : State) (r : Reg) : readRegister s r.offset = readReg s r := by
  simp [readRegister]

/-- A write at a register's offset writes that register. -/
@[simp] theorem writeRegister_offset (r : Reg) (v : Word) (s : State) : writeRegister r.offset v s = writeReg r v s := by
  simp [writeRegister]

/-- A read of the memory: the byte held, or a draw. -/
theorem loadByte_cases (sp : Space) (a : Word) (s : State) :
    (¬ ReadIsUnspecified s sp a.toNat ∧ loadByte sp a s = (peek s sp a.toNat, s)) ∨
    (ReadIsUnspecified s sp a.toNat ∧
      loadByte sp a s = (Config.freeByte s.draws sp a.toNat, { s with draws := s.draws + 1 })) := by
  unfold loadByte
  split
  · exact .inr ⟨‹_›, rfl⟩
  · exact .inl ⟨‹_›, rfl⟩

/-- A write of the memory: ignored, lost, or stored inside the space while the block is idle. -/
theorem storeByte_cases (sp : Space) (a : Word) (b : Byte) (s : State) :
    ((hostWritable sp = false ∨ s.params.extent sp ≤ a.toNat) ∧ storeByte sp a b s = s) ∨
    (hostWritable sp = true ∧ a.toNat < s.params.extent sp ∧ s.busy = true ∧ storeByte sp a b s = loseWrite s) ∨
    (hostWritable sp = true ∧ a.toNat < s.params.extent sp ∧ s.busy = false ∧
      storeByte sp a b s = s.setMem sp ((s.mem sp).put sp a.toNat b)) := by
  unfold storeByte
  split
  · exact .inl ⟨‹_›, rfl⟩
  · rename_i h
    simp only [not_or, Bool.not_eq_false, Nat.not_le] at h
    cases hb : s.busy
    · exact .inr (.inr ⟨h.1, h.2, rfl, rfl⟩)
    · exact .inr (.inl ⟨h.1, h.2, rfl, rfl⟩)

/-- A soft reset: memories kept, but for an aborted command's destination. -/
theorem softReset_cases (s : State) :
    (busySpace s = none ∧ softReset s = resetRegisters s) ∨
    (∃ sp, busySpace s = some sp ∧ softReset s = resetRegisters (forget sp s)) := by
  unfold softReset
  cases h : busySpace s with
  | none => exact .inl ⟨rfl, rfl⟩
  | some sp => exact .inr ⟨sp, rfl, rfl⟩

/-- Everything a register write can do. -/
theorem writeRegister_cases (off v : Word) (s : State) :
    writeRegister off v s = s ∨
    (s.busy = true ∧ writeRegister off v s = loseWrite s) ∨
    (regAt off = some .ctrl ∧ v.getLsbD 0 = true ∧ writeRegister off v s = softReset s) ∨
    (regAt off = some .ctrl ∧ v.getLsbD 0 = false ∧ writeRegister off v s = { s with ie := v.getLsbD 1 }) ∨
    (regAt off = some .status ∧ writeRegister off v s = clearStatus v s) ∨
    (regAt off = some .width ∧ s.busy = false ∧
      writeRegister off v s = { s with width := v.setWidth 16, pv := false }) ∨
    (regAt off = some .height ∧ s.busy = false ∧
      writeRegister off v s = { s with height := v.setWidth 16, pv := false }) ∨
    (regAt off = some .arg0 ∧ writeRegister off v s = { s with arg0 := v }) ∨
    (regAt off = some .arg1 ∧ writeRegister off v s = { s with arg1 := v }) ∨
    (regAt off = some .cmd ∧ s.busy = false ∧ writeRegister off v s = issue v s) ∨
    (regAt off = some .symcount ∧ s.busy = false ∧
      writeRegister off v s = { s with symcount := u32 (min v.toNat s.params.symDepth) }) := by
  unfold writeRegister
  cases hr : regAt off with
  | none => exact .inl rfl
  | some r =>
    cases r <;> simp only [writeReg]
    case ctrl =>
      unfold writeCtrl
      cases hv : v.getLsbD 0 with
      | true => exact .inr (.inr (.inl ⟨trivial, rfl, rfl⟩))
      | false => exact .inr (.inr (.inr (.inl ⟨trivial, rfl, rfl⟩)))
    case width =>
      unfold writeWidth
      cases hb : s.busy with
      | true => exact .inr (.inl ⟨rfl, rfl⟩)
      | false => exact .inr (.inr (.inr (.inr (.inr (.inl ⟨trivial, rfl, rfl⟩)))))
    case height =>
      unfold writeHeight
      cases hb : s.busy with
      | true => exact .inr (.inl ⟨rfl, rfl⟩)
      | false => exact .inr (.inr (.inr (.inr (.inr (.inr (.inl ⟨trivial, rfl, rfl⟩))))))
    case cmd =>
      unfold writeCmd
      cases hb : s.busy with
      | true => exact .inr (.inl ⟨rfl, rfl⟩)
      | false => exact .inr (.inr (.inr (.inr (.inr (.inr (.inr (.inr (.inr (.inl ⟨trivial, rfl, rfl⟩)))))))))
    case symcount =>
      unfold writeSymcount
      cases hb : s.busy with
      | true => exact .inr (.inl ⟨rfl, rfl⟩)
      | false => exact .inr (.inr (.inr (.inr (.inr (.inr (.inr (.inr (.inr (.inr ⟨trivial, rfl, rfl⟩)))))))))
    case status => exact .inr (.inr (.inr (.inr (.inl ⟨trivial, trivial⟩))))
    case arg0 => exact .inr (.inr (.inr (.inr (.inr (.inr (.inr (.inl ⟨trivial, trivial⟩)))))))
    case arg1 => exact .inr (.inr (.inr (.inr (.inr (.inr (.inr (.inr (.inl ⟨trivial, trivial⟩))))))))
    all_goals exact .inl trivial

/-- What the engine's turn can do: nothing while idle; BAD_COMMAND for a reserved word; the command. -/
theorem engineStep_cases (s : State) :
    (s.busy = false ∧ engineStep s = .next s) ∨
    (s.busy = true ∧ (∃ r, decode s.cur.word = .error r) ∧ engineStep s = .next (takeError .badCommand s)) ∨
    (s.busy = true ∧ ∃ i, decode s.cur.word = .ok i ∧ engineStep s = exec i s) := by
  unfold engineStep completeCommand
  cases hb : s.busy with
  | false => exact .inl ⟨rfl, rfl⟩
  | true =>
    cases hd : decode s.cur.word with
    | error r => exact .inr (.inl ⟨rfl, ⟨r, rfl⟩, rfl⟩)
    | ok i => exact .inr (.inr ⟨rfl, i, rfl, rfl⟩)

/-- The engine's turn never stops the block. -/
theorem engineStep_next (s : State) : ∃ t, engineStep s = .next t := by
  obtain ⟨-, h⟩ | ⟨-, -, h⟩ | ⟨-, i, -, h⟩ := engineStep_cases s
  · exact ⟨_, h⟩
  · exact ⟨_, h⟩
  · exact h ▸ exec_next i s

/-- Everything a step can do. -/
theorem step_cases (s : State) :
    (s.events = [] ∧ step s = engineStep s) ∨
    (∃ op rest, s.events = .host op :: rest ∧ step s = .next (hostAccess op { s with events := rest })) ∨
    (∃ rest, s.events = .engine :: rest ∧ step s = engineStep { s with events := rest }) ∨
    (∃ rest, s.events = .powerOn :: rest ∧ step s = .next (powerOnReset { s with events := rest })) := by
  unfold step stepEvents
  cases s.events with
  | nil => exact .inl ⟨rfl, rfl⟩
  | cons e rest =>
    cases e with
    | host op => exact .inr (.inl ⟨op, rest, rfl, rfl⟩)
    | engine => exact .inr (.inr (.inl ⟨rest, rfl, rfl⟩))
    | powerOn => exact .inr (.inr (.inr ⟨rest, rfl, rfl⟩))

/-- A run takes its first step, then the rest. -/
theorem run_succ {s t : State} (h : step s = .next t) (k : Nat) :
    Sys2Proof.core.run (k + 1) s = Sys2Proof.core.run k t := by
  have h' : Sys2Proof.core.step s = .next t := h
  refine (Host.Core.run.eq_2 Sys2Proof.core s k).trans ?_
  rw [h']

/-- What the engine's turn always leaves alone, and that it leaves the block idle. -/
theorem engineStep_keeps {u t : State} (h : engineStep u = .next t) :
    t.params = u.params ∧ t.arg0 = u.arg0 ∧ t.arg1 = u.arg1 ∧ t.ie = u.ie ∧ t.events = u.events ∧ t.busy = false := by
  rcases engineStep_cases u with ⟨hb, h'⟩ | ⟨-, -, h'⟩ | ⟨-, i, -, h'⟩ <;> rw [h'] at h
  · cases h; simp [hb]
  · cases h; simp
  · obtain ⟨e, -, h'⟩ | ⟨-, h'⟩ | ⟨-, -, h'⟩ | ⟨-, h'⟩ | ⟨-, -, -, h'⟩ | ⟨o, -, -, h'⟩ | ⟨o, -, h'⟩ := exec_cases i u <;>
      rw [h'] at h <;> cases h <;> simp [converted, classified, scanned, packed, packedWord]

end Sys2Proof.Laws
end

