-- ==== Sys2Proof/Laws/HostSequence.lean ====
section
/-! SUPPORT. What the host's commands do on an idle block, and how the parts of the host sequence follow each other. -/

namespace Sys2Proof.Laws

open Sys2Proof.Machine

/-- `t` is idle and holds the same picture as `s`: what every command of the sequence after CONVERT keeps. -/
structure SamePicture (s t : State) : Prop where
  params : t.params = s.params
  idle : t.busy = false
  pv : t.pv = s.pv
  width : t.width = s.width
  height : t.height = s.height
  pix : t.pix = s.pix

theorem SamePicture.trans {s t u : State} (h : SamePicture s t) (k : SamePicture t u) : SamePicture s u where
  params := k.params.trans h.params
  idle := k.idle
  pv := k.pv.trans h.pv
  width := k.width.trans h.width
  height := k.height.trans h.height
  pix := k.pix.trans h.pix

/-- The same picture has the same grid. -/
theorem SamePicture.cellCount {s t : State} (h : SamePicture s t) : cellCount t = cellCount s := by
  simp [Machine.cellCount, gridW, gridH, frameW, frameH, h.width, h.height]

/-- The same picture has the same symbol stream. -/
theorem SamePicture.cellSymbol {s t : State} (h : SamePicture s t) (q : Nat) : cellSymbol t q = cellSymbol s q := by
  have hp (a : Nat) : peek t .pix a = peek s .pix a := by simp [peek, State.mem, h.pix]
  simp [Machine.cellSymbol, cellRow, cellCol, gridW, frameW, h.width, window, pixelAt, hp]

/-- A number of fewer than 33 bits fits its word. -/
theorem toNat_u32 (a : Nat) (h : a < 2 ^ 32) : (u32 a).toNat = a := by
  rw [BitVec.toNat_ofNat]
  exact Nat.mod_eq_of_lt h

/-- CELLS never comes near 2^32 (R45). -/
theorem cellCount_lt (s : State) : cellCount s < 2 ^ 28 := by
  have hw : gridW s ≤ 16383 := by have := s.width.isLt; unfold gridW frameW; omega
  have hh : gridH s ≤ 16383 := by have := s.height.isLt; unfold gridH frameH; omega
  calc cellCount s ≤ 16383 * 16383 := Nat.mul_le_mul hw hh
    _ < 2 ^ 28 := by norm_num

/-- The packer's sums, as sums over a range. -/
theorem sumUpTo_eq_sum_range (n : Nat) (f : Nat → Nat) : sumUpTo n f = ∑ k ∈ Finset.range n, f k := by
  induction n with
  | zero => rfl
  | succ n ih => rw [Finset.sum_range_succ, ← ih]; simp [sumUpTo, List.range_succ]

/-- STATUS bits 11:8 are ERRCODE (R35). -/
theorem errcodeField_status (s : State) : errcodeField (readRegister s Reg.status.offset) = s.errcode.code := by
  show (statusWord s).extractLsb' 8 4 = _
  unfold statusWord
  ext i hi
  simp only [BitVec.getElem_extractLsb', BitVec.getLsbD_append]
  have : i = 0 ∨ i = 1 ∨ i = 2 ∨ i = 3 := by omega
  rcases this with rfl | rfl | rfl | rfl <;> simp

/-- After an issue the engine runs the command that was issued. -/
theorem engineStep_issue (i : Instr) (s : State) :
    engineStep (issue (encode i) s) = exec i (issue (encode i) s) := by
  have hd : decode (encode i) = .ok i := by
    revert i
    rintro (_ | _ | _ | _ | (_ | _) | (_ | _)) <;> decide
  have hw : (issue (encode i) s).cur.word = encode i := rfl
  have hb : (issue (encode i) s).busy = true := rfl
  simp only [engineStep, completeCommand, hw, hb, hd, if_true]

/-- `cmd i; wait` on an idle block: the command's completion, and one STATUS read. -/
theorem cmd_wait {s u : State} (hb : s.busy = false) (i : Instr) (h : exec i (issue (encode i) s) = .next u) :
    [AsmStmt.cmd i, .wait].foldl runStmt s = hostAccess (.regRead Reg.status.offset) u := by
  have hc : runStmt s (.cmd i) = issue (encode i) s := by
    show writeCmd _ s = _
    simp [writeCmd, hb]
  simp only [List.foldl_cons, List.foldl_nil]
  rw [hc]
  simp only [runStmt, afterEngine, engineStep_issue, h]

/-- `run` of a pseudo-instruction with two operands on an idle block (R237). -/
theorem runCommand_operands {s u : State} (p : Pseudo) (a b : Word) (i : Instr)
    (hp : p.expand = [.wr .arg0 a, .wr .arg1 b, .cmd i, .wait]) (hb : s.busy = false)
    (h : exec i (issue (encode i) { s with arg0 := a, arg1 := b }) = .next u) :
    ∃ t, runCommand p s = (u.errcode.code, t) ∧ t = { u with replies := t.replies } := by
  have e : runPseudo p s = hostAccess (.regRead Reg.status.offset) u := by
    unfold runPseudo
    rw [hp]
    exact cmd_wait (s := { s with arg0 := a, arg1 := b }) hb i h
  unfold runCommand
  rw [e]
  exact ⟨_, Prod.ext (errcodeField_status _) rfl, rfl⟩

/-- `scan a, b` inside the grid and SYM, on an idle block. -/
theorem runCommand_scan {s : State} (hb : s.busy = false) (hv : s.pv = true) (a b : Nat) (hab : a ≤ b)
    (hd : b - a ≤ s.params.symDepth) (hc : b ≤ cellCount s) :
    ∃ t, runCommand (.scan (u32 a) (u32 b)) s = (0, t) ∧ SamePicture s t ∧ t.symcount.toNat = b - a ∧
      ∀ k, k < b - a → symAt t k = cellSymbol s (a + k) := by
  have hlt := cellCount_lt s
  have e0 : operand0 (issue (encode .scan) { s with arg0 := u32 a, arg1 := u32 b }) = a := toNat_u32 a (by omega)
  have e1 : operand1 (issue (encode .scan) { s with arg0 := u32 a, arg1 := u32 b }) = b := toNat_u32 b (by omega)
  rcases execScan_cases (issue (encode .scan) { s with arg0 := u32 a, arg1 := u32 b }) with
    ⟨-, -, -, -, h⟩ | ⟨h, -⟩ | ⟨-, h, -⟩ | ⟨-, -, -, h, -⟩
  · obtain ⟨t, ht, hs⟩ := runCommand_operands (.scan (u32 a) (u32 b)) _ _ _ rfl hb h
    refine ⟨t, ht, ?_, ?_, ?_⟩
    · rw [hs]; exact ⟨rfl, rfl, rfl, rfl, rfl, rfl⟩
    · rw [hs]
      show (u32 _).toNat = _
      rw [e0, e1]
      exact toNat_u32 _ (by omega)
    · intro k hk
      rw [hs]
      show BitVec.setWidth 2 (Mem.byteAt (Mem.fill _ _ _) .sym k) = _
      rw [byteAt_fill_lt _ _ _ _ _ (by rw [e0, e1]; exact hk), e0]
      show BitVec.setWidth 2 (narrow .sym (symByte (cellSymbol s (a + k)))) = _
      generalize cellSymbol s (a + k) = x
      revert x
      decide
  · exact absurd (hv.symm.trans h) (by simp)
  · rw [e0, e1] at h
    exact absurd h (by show ¬ (_ ∨ s.params.symDepth < _); omega)
  · rw [e1] at h
    exact absurd h (by show ¬ (cellCount s < _); omega)

/-- `scan a, b` past the last cell, on an idle block: ERRCODE 1. -/
theorem runCommand_scan_outside {s : State} (hb : s.busy = false) (hv : s.pv = true) (a b : Nat) (hab : a < b)
    (hd : b - a ≤ s.params.symDepth) (hc : cellCount s < b) (hlt : b < 2 ^ 32) :
    ∃ t, runCommand (.scan (u32 a) (u32 b)) s = (1, t) := by
  have e0 : operand0 (issue (encode .scan) { s with arg0 := u32 a, arg1 := u32 b }) = a := toNat_u32 a (by omega)
  have e1 : operand1 (issue (encode .scan) { s with arg0 := u32 a, arg1 := u32 b }) = b := toNat_u32 b (by omega)
  rcases execScan_cases (issue (encode .scan) { s with arg0 := u32 a, arg1 := u32 b }) with
    ⟨-, -, -, h, -⟩ | ⟨h, -⟩ | ⟨-, h, -⟩ | ⟨-, -, -, -, h⟩
  · rw [e0, e1] at h
    exact absurd h (by show ¬ (_ ∨ _ ≤ cellCount s); omega)
  · exact absurd (hv.symm.trans h) (by simp)
  · rw [e0, e1] at h
    exact absurd h (by show ¬ (_ ∨ s.params.symDepth < _); omega)
  · obtain ⟨t, ht, -⟩ := runCommand_operands (.scan (u32 a) (u32 b)) _ _ _ rfl hb h
    exact ⟨t, ht⟩

/-- `packi 0, 16` on an idle block that holds 16 symbols. -/
theorem runCommand_packi {s : State} (hb : s.busy = false) (hn : 16 ≤ s.symcount.toNat) :
    ∃ t, runCommand (.packi .msFirst 0 16) s = (0, t) ∧ SamePicture s t ∧
      t.result = u32 (packedInt .msFirst 16 (symAt s)) := by
  rcases execPacki_cases .msFirst (issue (encode (.packi .msFirst)) { s with arg0 := 0, arg1 := 16 }) with
    ⟨-, h⟩ | ⟨h, -⟩
  · obtain ⟨t, ht, hs⟩ := runCommand_operands (.packi .msFirst 0 16) _ _ _ rfl hb h
    refine ⟨t, ht, ?_, ?_⟩
    · rw [hs]; exact ⟨rfl, rfl, rfl, rfl, rfl, rfl⟩
    · rw [hs]
      show u32 (packedInt _ 16 (fun k => symAt s (0 + k))) = _
      simp
  · exact absurd h (by show ¬ (s.symcount.toNat < 0 + 16); omega)

/-- `packb 0, n` on an idle block that holds `n` symbols, `n` a multiple of 4. -/
theorem runCommand_packb {s : State} (hb : s.busy = false) (n : Nat) (h4 : n % 4 = 0) (hn : n ≤ s.symcount.toNat) :
    ∃ t, runCommand (.packb .msFirst 0 (u32 n)) s = (0, t) ∧ SamePicture s t ∧
      (∀ m, m < n / 4 → peek t .out m = packedByte .msFirst s 0 m) ∧
      t.bsum = u32 (sumUpTo (n / 4) fun m => (packedByte .msFirst s 0 m).toNat) := by
  have e1 : operand1 (issue (encode (.packb .msFirst)) { s with arg0 := 0, arg1 := u32 n }) = n :=
    toNat_u32 n (by omega)
  rcases execPackb_cases .msFirst (issue (encode (.packb .msFirst)) { s with arg0 := 0, arg1 := u32 n }) with
    ⟨-, -, h⟩ | ⟨h, -⟩ | ⟨-, h, -⟩
  · obtain ⟨t, ht, hs⟩ := runCommand_operands (.packb .msFirst 0 (u32 n)) _ _ _ rfl hb h
    refine ⟨t, ht, ?_, ?_, ?_⟩
    · rw [hs]; exact ⟨rfl, rfl, rfl, rfl, rfl, rfl⟩
    · intro m hm
      rw [hs]
      show Mem.byteAt (Mem.fill _ _ _) .out m = _
      rw [byteAt_fill_lt _ _ _ _ _ (by rw [e1]; exact hm)]
      rfl
    · rw [hs]
      show u32 (sumUpTo (operand1 _ / 4) _) = _
      rw [e1]
      rfl
  · rw [e1] at h
    exact absurd h4 h
  · rw [e1] at h
    exact absurd h (by show ¬ (s.symcount.toNat < 0 + n); omega)

/-- Reading OUT on an idle block gives its bytes and changes nothing of the block. -/
theorem readOut_bytes (n m : Nat) (s : State) (hb : s.busy = false) (h : m + n ≤ s.params.outDepth)
    (hd : s.params.outDepth < 2 ^ 32) :
    (readOut n m s).1 = (List.range n).map (fun k => peek s .out (m + k)) ∧
      (readOut n m s).2 = { s with replies := (readOut n m s).2.replies } := by
  induction n generalizing m s with
  | zero => simp [readOut]
  | succ n ih =>
    have hm : (u32 m).toNat = m := toNat_u32 m (by omega)
    have hl : loadByte .out (u32 m) s = (peek s .out m, s) := by
      rcases loadByte_cases .out (u32 m) s with ⟨-, h'⟩ | ⟨h' | h', -⟩
      · rw [h', hm]
      · rw [hm] at h'
        simp only [Params.extent] at h'
        omega
      · simp [busySpace, hb] at h'
    have ha : hostAccess (.memRead .out (u32 m)) s = pushReply (.byte (peek s .out m)) s := by
      simp [hostAccess, hl]
    obtain ⟨i1, i2⟩ := ih (m + 1) (pushReply (.byte (peek s .out m)) s) hb
      (by show _ ≤ s.params.outDepth; omega) hd
    refine ⟨?_, ?_⟩
    · simp only [readOut, ha, hl]
      rw [i1, List.range_succ_eq_map, List.map_cons, List.map_map]
      congr 1
      apply List.map_congr_left
      intro k _
      show peek s .out (m + 1 + k) = peek s .out (m + (k + 1))
      congr 1
      omega
    · simp only [readOut, ha]
      rw [i2]
      rfl

/-- A part that goes on. -/
theorem andThen_ok {α β : Type} {p : HostPart α} {k : α → HostPart β} {s t : State} {a : α}
    (h : p s = (.ok a, t)) : (p.andThen k) s = k a t := by
  simp [HostPart.andThen, h]

/-- A part that ends the sequence. -/
theorem andThen_error {α β : Type} {p : HostPart α} {k : α → HostPart β} {s t : State} {r : HostResult}
    (h : p s = (.error r, t)) : (p.andThen k) s = (.error r, t) := by
  simp [HostPart.andThen, h]

/-- A command of the sequence that succeeds. -/
theorem runOr_ok {f : BitVec 4 → HostResult} {p : Pseudo} {s t : State} (h : runCommand p s = (0, t)) :
    runOr f p s = (.ok (), t) := by
  simp [runOr, h]

/-- A command of the sequence that fails. -/
theorem runOr_error {f : BitVec 4 → HostResult} {p : Pseudo} {s t : State} {e : BitVec 4} (he : e ≠ 0)
    (h : runCommand p s = (e, t)) : runOr f p s = (.error (f e), t) := by
  unfold runOr
  rw [h]
  exact if_pos he

/-- A check that fails ends the sequence. -/
theorem failIf_true {c : Prop} [Decidable c] (h : c) (r : HostResult) (s : State) :
    failIf (decide c) r s = (.error r, s) := by
  simp [failIf, h]

/-- A check that passes goes on. -/
theorem failIf_false {c : Prop} [Decidable c] (h : ¬ c) (r : HostResult) (s : State) :
    failIf (decide c) r s = (.ok (), s) := by
  simp [failIf, h]

/-- The five steps' result depends on the symbols of the grid's cells alone. -/
theorem protocolResult_congr (cells : Nat) (x y : Nat → Sym) (h : ∀ q, q < cells → x q = y q) :
    Claims.protocolResult cells x = Claims.protocolResult cells y := by
  have hb (a n : Nat) (hn : a + 4 * n ≤ cells) : Claims.streamBytes x a n = Claims.streamBytes y a n := by
    unfold Claims.streamBytes
    apply List.map_congr_left
    intro m hm
    have hm := List.mem_range.mp hm
    unfold Claims.streamByte
    rw [h _ (by omega), h _ (by omega), h _ (by omega), h _ (by omega)]
  have hi (a : Nat) (hn : a + 16 ≤ cells) : Claims.streamInt x a = Claims.streamInt y a := by
    unfold Claims.streamInt
    refine congrArg (fun n => s32 (u32 n)) (Finset.sum_congr rfl ?_)
    intro k hk
    rw [h _ (by have := Finset.mem_range.mp hk; omega)]
  unfold Claims.protocolResult
  by_cases h16 : cells < 16
  · rw [if_pos h16, if_pos h16]
  rw [if_neg h16, if_neg h16, hb 0 4 (by omega)]
  refine ite_congr rfl (fun _ => rfl) (fun _ => ?_)
  by_cases h32 : cells < 32
  · rw [if_pos h32, if_pos h32]
  rw [if_neg h32, if_neg h32, hi 16 (by omega)]
  refine ite_congr rfl (fun _ => rfl) (fun _ => ?_)
  by_cases h48 : cells < 48
  · rw [if_pos h48, if_pos h48]
  rw [if_neg h48, if_neg h48, hi 32 (by omega)]
  refine ite_congr rfl (fun _ => rfl) (fun hc => ite_congr rfl (fun _ => rfl) (fun hl => ?_))
  rw [hi 48 (by omega), hb 64 (Claims.streamInt y 32).toNat (by omega)]

end Sys2Proof.Laws
end

