-- ==== Sys2Proof/Laws/PerInstr.lean ====
section
/-! SUPPORT. Statements made of every command as syntax, one lemma per constructor. -/

namespace Sys2Proof.Laws.WellFormed

/-- The command is well formed, its word holds its fields, and no reserved bit of the word is set (R111, R115). -/
def Statement (i : Instr) : Prop := i.wellFormed = true ∧ fieldsOf (encode i) = i.fields

theorem nop : Statement .nop := ⟨by decide, by decide⟩

theorem convert : Statement .convert := ⟨by decide, by decide⟩

theorem classify : Statement .classify := ⟨by decide, by decide⟩

theorem scan : Statement .scan := ⟨by decide, by decide⟩

theorem packb (o : Order) : Statement (.packb o) := by cases o <;> exact ⟨by decide, by decide⟩

theorem packi (o : Order) : Statement (.packi o) := by cases o <;> exact ⟨by decide, by decide⟩

end Sys2Proof.Laws.WellFormed
end

