-- ==== Sys2Proof/Tests/Slice0.lean ====
section
/-! SUPPORT. Tests: words written out from the spec's encodings, values of the spec's own vectors (95_test_vectors.md), and a witness for every statement with hypotheses. -/

namespace Sys2Proof.Tests

open Sys2Proof.Machine Sys2Proof.Claims

/-! ## WellFormed smoke: one ill-formed term for each check -/

/-- RSV ≠ 0 (R115). -/
theorem test_wellFormed_refuses_rsv : FormatC.wellFormed { op := 0x00, o := false, rsv := 1 } = false := by decide

/-- OP = 0x06 (R115). -/
theorem test_wellFormed_refuses_op : FormatC.wellFormed { op := 0x06, o := false, rsv := 0 } = false := by decide

/-- CONVERT with O = 1 (R115). -/
theorem test_wellFormed_refuses_order : FormatC.wellFormed { op := 0x01, o := true, rsv := 0 } = false := by decide

/-! ## Words written out bit by bit from R111 and R113: RSV in bits 31:9, O in bit 8, OP in bits 7:0 -/

theorem test_decode_nop : decode 0b00000000000000000000000_0_00000000#32 = .ok .nop := by decide
theorem test_decode_convert : decode 0b00000000000000000000000_0_00000001#32 = .ok .convert := by decide
theorem test_decode_classify : decode 0b00000000000000000000000_0_00000010#32 = .ok .classify := by decide
theorem test_decode_scan : decode 0b00000000000000000000000_0_00000011#32 = .ok .scan := by decide
theorem test_decode_packb : decode 0b00000000000000000000000_0_00000100#32 = .ok (.packb .msFirst) := by decide
theorem test_decode_packb_ls : decode 0b00000000000000000000000_1_00000100#32 = .ok (.packb .lsFirst) := by decide
theorem test_decode_packi : decode 0b00000000000000000000000_0_00000101#32 = .ok (.packi .msFirst) := by decide
theorem test_decode_packi_ls : decode 0b00000000000000000000000_1_00000101#32 = .ok (.packi .lsFirst) := by decide

/-- The three grounds of R115, and NC4 to NC6's words. -/
theorem test_decode_reserved :
    decode 0b00000000000000000000000_0_00000110#32 = .error .opUndefined ∧
    decode 0b00000000000000000000000_1_00000001#32 = .error .orderNotAllowed ∧
    decode 0b00000000000000000000001_0_00000000#32 = .error .rsvNonzero ∧
    decode 0b10000000000000000000000_0_00000100#32 = .error .rsvNonzero := by decide

theorem test_decodeTableWord : decodeTableWord 32 0x104 = some (.packb .lsFirst) ∧ decodeTableWord 32 6 = none := by
  decide

/-! ## Small states -/

/-- The smallest parameters that hold a 4 × 4 frame. -/
def tiny : Params := { frameDepth := 24, pixCap := 16, symDepth := 16, cscGBinary64 := false }

/-- An idle block after reset, with those parameters. -/
def idle : State := { State.reset with params := tiny }

/-- The list (0, b0), (1, b1), … as a memory. -/
def memOf (l : List Byte) : Mem := { cells := l.zipIdx.map fun c => (c.2, c.1), epoch := 0 }

/-- CV2's frame: Y 0 to 15, U 100 to 130, V 140 to 170, WIDTH = HEIGHT = 4. -/
def framed : State :=
  { idle with
    width := 4
    height := 4
    frame := memOf [0, 1, 2, 3, 4, 5, 6, 7, 8, 9, 10, 11, 12, 13, 14, 15, 100, 110, 120, 130, 140, 150, 160, 170] }

/-- A converted 4 × 4 picture, all purple. -/
def picture : State :=
  { idle with width := 4, height := 4, pv := true, pix := memOf ((List.replicate 16 [128, 0, 128]).flatten) }

/-- Symbols written by the host, SYMCOUNT their number. -/
def withSymbols (l : List Byte) : State := { idle with sym := memOf l, symcount := u32 l.length }

/-- Command word `w` latched with operands `a` and `b`, not yet completed. -/
def running (w a b : Word) (s : State) : State := issue w { s with arg0 := a, arg1 := b }

/-- The state after the completion. -/
def completed (w a b : Word) (s : State) : State := afterEngine (running w a b s)

/-! ## The spec's vectors -/

/-- NC1. -/
theorem test_nop : readRegister (completed 0 0 0 idle) 0x04 = 0x02 := by decide

/-- CS1, CS2, CS6, CS7. -/
theorem test_csc : convertYuv false ⟨0, 0, 0⟩ = ⟨0, 135, 0⟩ ∧ convertYuv false ⟨255, 255, 255⟩ = ⟨255, 120, 255⟩ ∧
    convertYuv false ⟨0, 200, 219⟩ = ⟨128, 0, 128⟩ ∧ convertYuv false ⟨226, 0, 149⟩ = ⟨255, 255, 0⟩ := by decide

/-- CS8, CS9, CS12 with the parameter true. -/
theorem test_csc_binary64 : convertYuv true ⟨100, 30, 238⟩ = ⟨254, 54, 0⟩ ∧
    convertYuv true ⟨94, 30, 238⟩ = ⟨248, 49, 0⟩ ∧ convertYuv true ⟨174, 30, 238⟩ = ⟨255, 129, 0⟩ := by decide

/-- CV2: PIX[0][2], PIX[2][0] and PIX[3][3]. -/
theorem test_convert : let t := completed 1 0 0 framed
    pixelAt t 0 2 = ⟨32, 0, 0⟩ ∧ pixelAt t 2 0 = ⟨53, 0, 0⟩ ∧ pixelAt t 3 3 = ⟨74, 0, 18⟩ ∧
    readRegister t 0x04 = 0x12 := by decide +kernel

/-- CV4. -/
theorem test_convert_odd_height : readRegister (completed 1 0 0 { idle with width := 2, height := 3 }) 0x04 = 0x206 := by
  decide +kernel

/-- CL2. -/
theorem test_classify_purple : classify (List.replicate 16 ⟨128, 0, 128⟩) = (1, ⟨2534, 0, 4368, 4354⟩) := by decide +kernel

/-- CL7: three outliers, one of them kept. -/
theorem test_classify_outliers :
    classify (List.replicate 13 ⟨128, 0, 128⟩ ++ List.replicate 3 ⟨255, 255, 255⟩) = (1, ⟨2794, 311, 4197, 3421⟩) := by
  decide +kernel

/-- CL5: a tie goes to the lower symbol. -/
theorem test_classify_tie : (classify (List.replicate 16 ⟨64, 0, 64⟩)).1 = 0 := by decide +kernel

/-- CC1, CC7: no bound check wraps. -/
theorem test_classify_command : (completed 2 0 0 picture).result = 1 ∧
    readRegister (completed 2 0xFFFFFFFE 0 picture) 0x04 = 0x116 := by decide +kernel

/-- SC2's kind: the one cell of a purple picture. -/
theorem test_scan : let t := completed 3 0 1 picture
    symAt t 0 = 1 ∧ t.symcount = 1 ∧ readRegister t 0x04 = 0x12 := by decide +kernel

/-- SC8 before SC5: the range check comes first. -/
theorem test_scan_order : readRegister (completed 3 0 17 picture) 0x04 = 0x316 ∧
    readRegister (completed 3 0 2 picture) 0x04 = 0x116 := by decide +kernel

/-- PB6: three bytes in one pack. -/
theorem test_packb : let t := completed 4 0 12 (withSymbols [3, 3, 3, 3, 0, 0, 0, 0, 2, 1, 3, 0])
    (List.range 3).map (peek t .out) = [0xFF, 0x00, 0x9C] ∧ t.outcount = 3 ∧ t.bsum = 411 := by decide +kernel

/-- PB2. -/
theorem test_packb_ls : let t := completed 0x104 0 4 (withSymbols [1, 2, 0, 1])
    peek t .out 0 = 0x49 ∧ t.bsum = 73 := by decide +kernel

/-- PI17. -/
theorem test_packi : (completed 5 0 16 (withSymbols [0, 1, 2, 3, 0, 1, 2, 3, 0, 1, 2, 3, 0, 1, 2, 3])).result =
    0x1B1B1B1B := by decide +kernel

/-- PI18. -/
theorem test_packi_ls : (completed 0x105 0 16 (withSymbols [0, 1, 2, 3, 0, 1, 2, 3, 0, 1, 2, 3, 0, 1, 2, 3])).result =
    0xE4E4E4E4 := by decide +kernel

/-- NC4. -/
theorem test_bad_command : readRegister (completed 6 0 0 idle) 0x04 = 0x606 := by decide

/-- NC9 and PB13: what the host's writes store. -/
theorem test_host_writes : (hostAccess (.regWrite 0x24 1000000) State.reset).symcount = 4096 ∧
    peek (hostAccess (.memWrite .sym 0 6) idle) .sym 0 = 2 := by decide

/-- The very next step after `withFetchWord` runs the word's command (NC4, NC1). -/
theorem test_withFetchWord : ∃ t u, step (State.reset.withFetchWord 32 0x101) = .next t ∧ t.errcode = .badCommand ∧
    step (State.reset.withFetchWord 32 0) = .next u ∧ u.errcode = .none ∧ u.done = true := ⟨_, _, rfl, rfl, rfl, rfl, rfl⟩

/-! ## A witness for every statement with hypotheses: a concrete state and operands that meet them -/

/-- The state with the engine's turn put first, and the state it leaves. -/
def atTurn (s : State) : State := { s with events := [.engine] }

/-- Both forms of the engine's turn. -/
theorem witness_EngineTurn : EngineTurn (running 6 0 0 idle) (running 6 0 0 idle) ∧
    EngineTurn (atTurn (running 6 0 0 idle)) (running 6 0 0 idle) := ⟨.inl ⟨rfl, rfl⟩, .inr ⟨[], rfl, rfl⟩⟩

theorem witness_DecodeOkIffEncoded : decode 0x105 = .ok (.packi .lsFirst) ∧ (0x105 : Word) = encode (.packi .lsFirst) := by
  decide

/-- Each ground of R115 at its boundary: OP = 6, RSV = 1, O with OP = 3. -/
theorem witness_ReservedWordsCompleteWithBadCommand :
    (running 6 0 0 idle).busy = true ∧ EngineTurn (running 6 0 0 idle) (running 6 0 0 idle) ∧
    (∃ r, decode (running 6 0 0 idle).cur.word = .error r) ∧ (∃ r, decode 0x200 = .error r) ∧
    (∃ r, decode 0x103 = .error r) :=
  ⟨rfl, .inl ⟨rfl, rfl⟩, ⟨.opUndefined, by decide⟩, ⟨.rsvNonzero, by decide⟩, ⟨.orderNotAllowed, by decide⟩⟩

theorem witness_StepRunsTheLatchedCommand : (running 3 0 1 picture).busy = true ∧
    EngineTurn (atTurn (running 3 0 1 picture)) (running 3 0 1 picture) ∧
    decode (running 3 0 1 picture).cur.word = .ok .scan := ⟨rfl, .inr ⟨[], rfl, rfl⟩, by decide⟩

theorem witness_IdleEngineHasNoStep : idle.busy = false ∧ EngineTurn idle idle ∧ EngineTurn (atTurn idle) idle :=
  ⟨rfl, .inl ⟨rfl, rfl⟩, .inr ⟨[], rfl, rfl⟩⟩

theorem witness_CmdWriteIssuesOrIsLost : idle.busy = false ∧ (running 0 0 0 idle).busy = true := ⟨rfl, rfl⟩

/-- A completion with an error code and one without. -/
theorem witness_CompletionsArePrecise :
    (∃ t, step (running 6 0 0 idle) = .next t ∧ t.errcode ≠ .none) ∧
    (∃ t, step (running 0 0 0 idle) = .next t ∧ t.errcode = .none) :=
  ⟨⟨_, rfl, by decide⟩, ⟨_, rfl, by decide⟩⟩

theorem witness_CommandsWriteOnlyTheirTargets : ∀ i : Instr, ∃ t, exec i picture = .next t :=
  fun i => Laws.exec_next i picture

/-- The smallest frame, and the largest one these parameters hold. -/
theorem witness_ConvertWritesEveryPixel :
    LegalDims tiny 2 2 ∧ LegalDims tiny framed.width.toNat framed.height.toNat ∧
    framed.width.toNat * framed.height.toNat = tiny.pixCap ∧
    3 * (framed.width.toNat * framed.height.toNat) / 2 = tiny.frameDepth := by decide

/-- Each ground alone: too narrow, too flat, odd, too many pixels, too many bytes. -/
theorem witness_ConvertRejectsIllegalDimensions :
    let dims (w h : Dim) : State := { idle with width := w, height := h }
    (dims 0 2).width.toNat < 2 ∧ (dims 2 0).height.toNat < 2 ∧ (dims 3 2).width.toNat % 2 = 1 ∧
    (dims 2 3).height.toNat % 2 = 1 ∧ tiny.pixCap < (dims 6 4).width.toNat * (dims 6 4).height.toNat ∧
    Params.frameDepth { tiny with frameDepth := 23 } < 3 * (framed.width.toNat * framed.height.toNat) / 2 := by decide

/-- The first and the last luma of the quirk range, and their neighbours outside it. -/
theorem witness_Binary64GreenDiffersAtSeventyNineInputs :
    (((30 : Byte).toNat = 30 ∧ (238 : Byte).toNat = 238 ∧ 95 ≤ (95 : Byte).toNat ∧ (95 : Byte).toNat ≤ 173) ∧
      95 ≤ (173 : Byte).toNat ∧ (173 : Byte).toNat ≤ 173) ∧
    ¬ 95 ≤ (94 : Byte).toNat ∧ ¬ (174 : Byte).toNat ≤ 173 := by decide

/-- A 2 × 2 frame takes six bytes: two states that differ in FRAME[6] only. -/
theorem witness_ConvertReadsOnlyTheFrameBytes :
    let s : State := { idle with width := 2, height := 2, frame := memOf [1, 2, 3, 4, 5, 6, 7] }
    let t : State := { s with frame := memOf [1, 2, 3, 4, 5, 6, 8] }
    LegalDims s.params s.width.toNat s.height.toNat ∧
    (∀ a, a < 3 * (s.width.toNat * s.height.toNat) / 2 → peek s .frame a = peek t .frame a) ∧
    peek s .frame 6 ≠ peek t .frame 6 := by decide

/-- The window that touches both far edges. -/
theorem witness_ClassifyWritesTheWindowsSymbol : picture.pv = true ∧
    picture.cur.a0.toNat + 4 = picture.height.toNat ∧ picture.cur.a1.toNat + 4 = picture.width.toNat := by decide

/-- No frame; one row too low; one column too far. -/
theorem witness_ClassifyErrorsInOrder : framed.pv = false ∧ picture.pv = true ∧
    (running 2 1 0 picture).height.toNat < (running 2 1 0 picture).cur.a0.toNat + 4 ∧
    (running 2 0 1 picture).width.toNat < (running 2 0 1 picture).cur.a1.toNat + 4 := by decide

theorem witness_IsqrtIsTheLargestRoot : 441 * 441 ≤ 195075 ∧ isqrt 195075 = 441 := by decide

theorem witness_SelectedSymbolIsTheFirstMinimum :
    (0 : Sym).toNat < (classify (List.replicate 16 ⟨128, 0, 128⟩)).1.toNat := by decide +kernel

theorem witness_ClassifyIgnoresPixelOrder : [RGB.mk 0 0 0, ⟨1, 2, 3⟩].Perm [⟨1, 2, 3⟩, ⟨0, 0, 0⟩] := .swap _ _ _

/-- CL12 and CL6: five outliers, and two. -/
theorem witness_FiveCorruptedPixelsKeepTheSymbol :
    let w (m : Nat) : List RGB := List.replicate (16 - m) ⟨128, 0, 128⟩ ++ List.replicate m ⟨255, 255, 255⟩
    (w 5).length = 16 ∧ corrupted (w 5) 1 = 5 ∧ (w 2).length = 16 ∧ corrupted (w 2) 1 = 2 ∧ (0 : Sym) ≠ 1 := by decide

/-- The empty range past every cell, and the whole grid. -/
theorem witness_ScanClassifiesTheRange : picture.pv = true ∧
    (running 3 9 9 picture).cur.a0.toNat = (running 3 9 9 picture).cur.a1.toNat ∧
    (running 3 0 1 picture).cur.a1.toNat = picture.width.toNat / 4 * (picture.height.toNat / 4) ∧
    (running 3 0 1 picture).cur.a1.toNat - 0 ≤ tiny.symDepth := by decide

/-- No frame; first just above last; one symbol too many for SYM; one cell too far. -/
theorem witness_ScanErrorsInOrder : framed.pv = false ∧ picture.pv = true ∧
    (running 3 1 0 picture).cur.a1.toNat < (running 3 1 0 picture).cur.a0.toNat ∧
    tiny.symDepth < (running 3 0 17 picture).cur.a1.toNat - (running 3 0 17 picture).cur.a0.toNat ∧
    (running 3 0 2 picture).cur.a1.toNat - (running 3 0 2 picture).cur.a0.toNat ≤ tiny.symDepth ∧
    picture.width.toNat / 4 * (picture.height.toNat / 4) < (running 3 0 2 picture).cur.a1.toNat := by decide

theorem witness_CellWindowInsideIffIndexBelowCells : 0 < cellCount picture ∧ ¬ 1 < cellCount picture := by decide

/-- SC11 and SC12: a converted 2 × 2 frame. -/
theorem witness_ZeroWidthGridScans :
    let s : State := { picture with width := 2, height := 2 }
    s.pv = true ∧ s.width.toNat < 4 ∧ (running 3 0 1 s).cur.a0.toNat < (running 3 0 1 s).cur.a1.toNat ∧
    (running 3 0 1 s).cur.a1.toNat - (running 3 0 1 s).cur.a0.toNat ≤ s.params.symDepth ∧
    (running 3 0 0 s).cur.a0 = (running 3 0 0 s).cur.a1 := by decide

/-- All four symbols held, and the empty range at their end. -/
theorem witness_PackbWritesBytesAndSum :
    let s := running 4 0 4 (withSymbols [1, 2, 0, 1])
    let t := running 4 4 0 (withSymbols [1, 2, 0, 1])
    s.cur.a1.toNat % 4 = 0 ∧ s.cur.a0.toNat + s.cur.a1.toNat = s.symcount.toNat ∧ 0 < s.cur.a1.toNat / 4 ∧
    t.cur.a1.toNat % 4 = 0 ∧ t.cur.a0.toNat + t.cur.a1.toNat = t.symcount.toNat := by decide

/-- PB8's kind and PB9's kind. -/
theorem witness_PackErrorsInOrder :
    let s (a b : Word) := running 4 a b (withSymbols [1, 2, 0, 1])
    (s 0 2).cur.a1.toNat % 4 ≠ 0 ∧ (s 1 4).cur.a1.toNat % 4 = 0 ∧
    (s 1 4).symcount.toNat < (s 1 4).cur.a0.toNat + (s 1 4).cur.a1.toNat := by decide

/-- PI2's range and PI11's empty one. -/
theorem witness_PackiWritesTheBaseFourNumber :
    let s (a b : Word) := running 5 a b (withSymbols (List.replicate 16 3))
    (s 0 16).cur.a0.toNat + (s 0 16).cur.a1.toNat = (s 0 16).symcount.toNat ∧
    (s 16 0).cur.a0.toNat + (s 16 0).cur.a1.toNat = (s 16 0).symcount.toNat := by decide

theorem witness_PackiIsTheWrappingAccumulator :
    let s := running 5 1 15 (withSymbols (List.replicate 16 3))
    s.cur.a0.toNat + s.cur.a1.toNat ≤ s.symcount.toNat := by decide

theorem witness_PackiKeepsSixteenSymbols : 16 ≤ 16 ∧ 16 ≤ 17 := by decide

/-- An unaligned offset, the first reserved one, and the two ends of the read-only ones. -/
theorem witness_ReservedOffsetsAreInert : (6 : Word).toNat % 4 ≠ 0 ∧ 0x44 < (0x48 : Word).toNat ∧
    (0x1C : Word).toNat ∈ [0x1C, 0x20, 0x28, 0x2C, 0x30, 0x34, 0x38, 0x3C, 0x40, 0x44] ∧
    (0x44 : Word).toNat ∈ [0x1C, 0x20, 0x28, 0x2C, 0x30, 0x34, 0x38, 0x3C, 0x40, 0x44] := by decide

/-- The reset parameters; the largest FRAME, whose depth reads 0; and the largest SYM and PIX. -/
theorem witness_RegisterReadsReturnTheirValues : State.reset.params.Legal ∧ State.reset.params.frameDepth < 2 ^ 32 ∧
    Params.Legal { tiny with frameDepth := 2 ^ 32 } ∧
    Params.Legal { tiny with symDepth := 2 ^ 32 - 4, pixCap := 2 ^ 32 / 3 } := by decide

theorem witness_DimensionWritesClearPixelValid : picture.busy = false ∧ picture.pv = true := ⟨rfl, rfl⟩

theorem witness_SymcountAndOperandWrites : idle.busy = false ∧ (running 0 0 0 idle).busy = true := ⟨rfl, rfl⟩

/-- The last address of FRAME and SYM and the first past the end, while a command runs; CTRL values that set and
clear IE, and one that resets. -/
theorem witness_BusyWritesAreLost :
    let s := running 1 0 0 framed
    s.busy = true ∧ (2 : Word).getLsbD 0 = false ∧ (23 : Word).toNat < s.params.frameDepth ∧
    s.params.frameDepth ≤ (24 : Word).toNat ∧ (15 : Word).toNat < s.params.symDepth ∧
    s.params.symDepth ≤ (16 : Word).toNat ∧ (2 : Word).getLsbD 1 = true ∧ (4 : Word).getLsbD 0 = false ∧
    (4 : Word).getLsbD 1 = false ∧ (1 : Word).getLsbD 0 = true ∧ (7 : Word).toNat % 4 ≠ 0 ∧
    0x44 < (0x48 : Word).toNat ∧
    (0x1C : Word).toNat ∈ [0x1C, 0x20, 0x28, 0x2C, 0x30, 0x34, 0x38, 0x3C, 0x40, 0x44] := by decide

/-- A CTRL write without SRST, and an operation that is no CTRL write. -/
theorem witness_HostCannotReachTheRunningCommand : (running 1 0 0 framed).busy = true ∧
    (∀ v : Word, HostOp.regWrite 0x00 2 = .regWrite 0x00 v → v.getLsbD 0 = false) ∧
    (∀ v : Word, HostOp.memWrite .frame 0 0 = .regWrite 0x00 v → v.getLsbD 0 = false) :=
  ⟨rfl, fun v h => by cases h; decide, fun v h => by cases h⟩

theorem witness_OperandWritesCommuteWithCompletion : (running 2 0 0 picture).busy = true ∧
    ∃ t, engineStep (running 2 0 0 picture) = .next t := ⟨rfl, Laws.engineStep_next _⟩

theorem witness_HostStoreThenLoad : idle.busy = false ∧ (23 : Word).toNat < idle.params.frameDepth ∧
    idle.params.frameDepth ≤ (24 : Word).toNat ∧ (15 : Word).toNat < idle.params.symDepth ∧
    idle.params.symDepth ≤ (16 : Word).toNat := by decide

/-- A byte inside PIX while idle; the first past its end; PIX under a running CONVERT, SYM under a running
SCAN, OUT under a running PACKB; and FRAME under a running CONVERT, which stays readable. -/
theorem witness_HostReadReturnsTheByteOrADraw :
    let unspecified (s : State) (sp : Space) (a : Word) : Prop := s.params.extent sp ≤ a.toNat ∨
      (s.busy = true ∧ ((sp = .pix ∧ s.cur.word = 0x00000001) ∨ (sp = .sym ∧ s.cur.word = 0x00000003) ∨
        (sp = .out ∧ (s.cur.word = 0x00000004 ∨ s.cur.word = 0x00000104))))
    ¬ unspecified picture .pix 47 ∧ unspecified picture .pix 48 ∧ unspecified (running 1 0 0 framed) .pix 0 ∧
    unspecified (running 3 0 1 picture) .sym 0 ∧ unspecified (running 0x104 0 4 idle) .out 0 ∧
    ¬ unspecified (running 1 0 0 framed) .frame 0 := by decide

theorem witness_HostAccessesAreIdempotent :
    (∀ off v, HostOp.memRead .pix 0 ≠ .regWrite off v) ∧ (∀ sp a b, HostOp.memRead .pix 0 ≠ .memWrite sp a b) ∧
    (0x00 : Word) ≠ 0x18 ∧ (2 : Word).getLsbD 0 = false ∧ (0x24 : Word) ≠ 0x18 ∧ (0x24 : Word) ≠ 0x00 :=
  ⟨nofun, nofun, by decide, by decide, by decide, by decide⟩

theorem witness_InterruptFollowsDoneAndEnable :
    (∃ t, step { running 0 0 0 idle with ie := true } = .next t ∧ irq t = true) ∧
    (2 : Word).getLsbD 1 = true ∧ (1 : Word).getLsbD 1 = false ∧ (1 : Word).getLsbD 0 = true ∧ idle.busy = false :=
  ⟨⟨_, rfl, rfl⟩, by decide, by decide, by decide, rfl⟩

theorem witness_ResetsRestoreEveryRegister : (3 : Word).getLsbD 0 = true ∧
    ({ picture with events := [.powerOn, .engine] } : State).events = .powerOn :: [.engine] := by decide

/-- An idle block, one running each command that writes a memory, and a coming power-on reset. -/
theorem witness_SoftResetKeepsOrForgetsMemories : (1 : Word).getLsbD 0 = true ∧ picture.busy = false ∧
    (running 1 0 0 framed).busy = true ∧ (running 1 0 0 framed).cur.word = 0x00000001 ∧
    (running 3 0 1 picture).cur.word = 0x00000003 ∧ (running 4 0 4 idle).cur.word = 0x00000004 ∧
    (running 0x104 0 4 idle).cur.word = 0x00000104 ∧ (running 0 0 0 idle).cur.word ≠ 0x00000001 ∧
    ({ picture with events := [.powerOn] } : State).events = .powerOn :: [] := by decide

/-- A step that changes each memory: host writes, and the completion of CONVERT, SCAN and PACKB. -/
theorem witness_OnlyTheirWritersChangeMemories :
    (∃ t, step { idle with events := [.host (.memWrite .frame 0 7)] } = .next t ∧ t.frame ≠ idle.frame) ∧
    (∃ t, step { idle with events := [.host (.memWrite .sym 0 1)] } = .next t ∧ t.sym ≠ idle.sym) ∧
    (∃ t, step (running 1 0 0 framed) = .next t ∧ t.pix ≠ framed.pix) ∧
    (∃ t, step (running 3 0 1 picture) = .next t ∧ t.sym ≠ picture.sym) ∧
    (∃ t, step (running 4 0 4 (withSymbols [1, 2, 0, 1])) = .next t ∧ t.out ≠ idle.out) := by
  refine ⟨⟨_, rfl, ?_⟩, ⟨_, rfl, ?_⟩, ⟨_, rfl, ?_⟩, ⟨_, rfl, ?_⟩, ⟨_, rfl, ?_⟩⟩ <;> decide +kernel

/-- A state of the invariant with a picture in it, and a step from it. -/
theorem witness_StepKeepsTheInvariant : Inv picture ∧ ∃ t, step picture = .next t where
  left :=
    { params := by decide
      frame := Laws.MemOk_unspecified _ _ _ _ (by decide)
      pix := ⟨by decide, by decide, by decide, by decide⟩
      sym := Laws.MemOk_unspecified _ _ _ _ (by decide)
      out := Laws.MemOk_unspecified _ _ _ _ (by decide)
      symcount := by decide
      outcount := by decide
      pvDims := fun _ => by decide
      pvPix := fun _ => by decide
      busyStatus := by decide }
  right := ⟨_, rfl⟩

/-- The engine's turn in both forms. -/
theorem witness_ConstantsAndOperandsAreTheHosts : (∃ t, step picture = .next t) ∧ picture.events = [] ∧
    (∃ t, step (atTurn (running 0 0 0 picture)) = .next t) ∧ (atTurn picture).events = [.engine] :=
  ⟨⟨_, rfl⟩, rfl, ⟨_, rfl⟩, rfl⟩

theorem witness_RunningCommandEndsWithinTheQueue :
    ({ running 2 0 0 picture with events := [.host (.regRead 4), .host (.regWrite 0x18 0)] } : State).busy = true := rfl

theorem witness_PseudoInstructionsAreTheirEvents :
    ({ picture with events := Pseudo.events 2 (.classify 0 0) ++ [.powerOn] } : State).events =
      Pseudo.events 2 (.classify 0 0) ++ [.powerOn] := rfl

/-- A frame of one cell (a frame that passes every step is in `witness_DecodeFollowsTheFiveSteps_whole`). -/
theorem witness_DecodeFollowsTheFiveSteps : idle.params.Legal ∧ idle.busy = false ∧
    LegalDims idle.params (4 : Dim).toNat (4 : Dim).toNat ∧
    (List.replicate 24 (0 : Byte)).length = 3 * ((4 : Dim).toNat * (4 : Dim).toNat) / 2 := by decide

/-- Two idle states that differ in their memories and registers. -/
theorem witness_DecodeIsAPureFunction : framed.params.Legal ∧ framed.params = picture.params ∧
    framed.busy = false ∧ picture.busy = false ∧
    (List.replicate 24 (0 : Byte)).length = 3 * ((4 : Dim).toNat * (4 : Dim).toNat) / 2 ∧ framed ≠ picture := by decide

/-- Exactly 64 cells. -/
theorem witness_RoomForTheHeaderIsNeverOutOfBounds : State.reset.params.Legal ∧ State.reset.busy = false ∧
    LegalDims State.reset.params (32 : Dim).toNat (32 : Dim).toNat ∧
    64 ≤ (32 : Dim).toNat / 4 * ((32 : Dim).toNat / 4) := by decide

/-- An illegal width, no cell at all, and 15 cells. -/
theorem witness_FramesTooSmallForTheMagic : State.reset.params.Legal ∧ State.reset.busy = false ∧
    ¬ LegalDims State.reset.params (0 : Dim).toNat (4 : Dim).toNat ∧
    LegalDims State.reset.params (2 : Dim).toNat (4 : Dim).toNat ∧
    LegalDims State.reset.params (20 : Dim).toNat (12 : Dim).toNat ∧
    (20 : Dim).toNat / 4 * ((12 : Dim).toNat / 4) < 16 := by decide

/-- The smallest chunk and the largest, on a picture of one cell and on none of it. -/
theorem witness_BodyChunkingChangesNothing :
    let s : State := { picture with width := 16 }
    s.busy = false ∧ s.pv = true ∧ s.params.Legal ∧ 16 ≤ s.params.symDepth ∧
    0 + 4 ≤ s.width.toNat / 4 * (s.height.toNat / 4) := by decide

/-! The frame of the last witness: the test frames of 95_test_vectors.md, and a stream of 68 symbols. -/

/-- The exact triples T0 to T3. -/
def exactYuv (x : Sym) : Yuv :=
  match x.toNat with
  | 0 => ⟨0, 128, 128⟩
  | 1 => ⟨0, 200, 219⟩
  | 2 => ⟨226, 0, 149⟩
  | _ => ⟨255, 128, 128⟩

/-- The byte at FRAME address `a` of the test frame of 16 × 68 pixels (4 × 17 cells) with symbol stream `x`. -/
def frameByte (x : Nat → Sym) (a : Nat) : Byte :=
  if a < 1088 then (exactYuv (x (4 * (a / 64) + a % 16 / 4))).y
  else if a < 1360 then (exactYuv (x (4 * ((a - 1088) / 16) + (a - 1088) % 8 / 2))).u
  else (exactYuv (x (4 * ((a - 1360) / 16) + (a - 1360) % 8 / 2))).v

/-- The test frame with symbol stream `x`. -/
def testFrame (x : Nat → Sym) : List Byte := (List.range 1632).map (frameByte x)

/-- Every exact triple classifies to its symbol (CS4 to CS7, CL1 to CL4). -/
theorem classify_exact (x : Sym) :
    (classify ((List.range 16).map fun _ => convertYuv false (exactYuv x))).1 = x := by
  revert x
  decide +kernel

/-- The bytes of the test frame. -/
theorem getD_testFrame (x : Nat → Sym) (a : Nat) (h : a < 1632) : (testFrame x).getD a 0 = frameByte x a := by
  simp [testFrame, h]

/-- The symbol stream of the test frame is the one it was built from. -/
theorem frameSymbol_testFrame (x : Nat → Sym) (q : Nat) (hq : q < 68) : frameSymbol false (testFrame x) 16 68 q = x q := by
  rw [← classify_exact (x q)]
  unfold frameSymbol
  refine congrArg (fun l => (classify l).1) (List.map_congr_left ?_)
  intro k hk
  have hk := List.mem_range.mp hk
  unfold framePixel
  refine congrArg (convertYuv false) ?_
  have hr : q / (16 / 4) < 17 := by omega
  have hc : q % (16 / 4) < 4 := by omega
  have hq' : q = 4 * (q / (16 / 4)) + q % (16 / 4) := by omega
  generalize hR : q / (16 / 4) = R at *
  generalize hC : q % (16 / 4) = C at *
  have hi : k / 4 < 4 := by omega
  have hj : k % 4 < 4 := by omega
  generalize k / 4 = i at *
  generalize k % 4 = j at *
  rw [getD_testFrame _ _ (by omega), getD_testFrame _ _ (by omega), getD_testFrame _ _ (by omega)]
  have e1 : frameByte x ((4 * R + i) * 16 + (4 * C + j)) = (exactYuv (x q)).y := by
    unfold frameByte
    rw [if_pos (by omega)]
    refine congrArg (fun q => (exactYuv (x q)).y) ?_
    omega
  have e2 : frameByte x (16 * 68 + (4 * R + i) / 2 * (16 / 2) + (4 * C + j) / 2) = (exactYuv (x q)).u := by
    unfold frameByte
    rw [if_neg (by omega), if_pos (by omega)]
    refine congrArg (fun q => (exactYuv (x q)).u) ?_
    omega
  have e3 : frameByte x (16 * 68 + 16 * 68 / 4 + (4 * R + i) / 2 * (16 / 2) + (4 * C + j) / 2) = (exactYuv (x q)).v := by
    unfold frameByte
    rw [if_neg (by omega), if_neg (by omega)]
    refine congrArg (fun q => (exactYuv (x q)).v) ?_
    omega
  rw [e1, e2, e3]

/-- "amed", version 1, length 1, checksum = the byte 'h' = 1 2 2 0, and a body of the four given symbols. -/
def headed (body : List Sym) (q : Nat) : Sym :=
  ([1, 2, 0, 1, 1, 2, 3, 1, 1, 2, 1, 1, 1, 2, 1, 0, 0, 0, 0, 0, 0, 0, 0, 0, 0, 0, 0, 0, 0, 0, 0, 1, 0, 0, 0, 0, 0, 0,
    0, 0, 0, 0, 0, 0, 0, 0, 0, 1, 0, 0, 0, 0, 0, 0, 0, 0, 0, 0, 0, 0, 1, 2, 2, 0] ++ body).getD q 0

/-- Its 68 cells decode to "h" by the five steps. -/
theorem protocolResult_testFrame :
    protocolResult (16 / 4 * (68 / 4)) (frameSymbol false (testFrame (headed [1, 2, 2, 0])) 16 68) = .ok [0x68] := by
  rw [show 16 / 4 * (68 / 4) = 68 from rfl, Laws.protocolResult_congr 68 _ (headed [1, 2, 2, 0]) (fun q hq => frameSymbol_testFrame _ q hq)]
  decide +kernel

/-- A frame of 68 cells that passes every one of the five steps. -/
theorem witness_DecodeFollowsTheFiveSteps_whole :
    let W : Dim := 16
    let H : Dim := 68
    let frame := testFrame (headed [1, 2, 2, 0])
    State.reset.params.Legal ∧ State.reset.busy = false ∧ LegalDims State.reset.params W.toNat H.toNat ∧
    frame.length = 3 * (W.toNat * H.toNat) / 2 ∧ 64 ≤ W.toNat / 4 * (H.toNat / 4) ∧
    protocolResult (W.toNat / 4 * (H.toNat / 4))
      (frameSymbol State.reset.params.cscGBinary64 frame W.toNat H.toNat) = .ok [0x68] := by
  intro W H frame
  have hW : W.toNat = 16 := rfl
  have hH : H.toNat = 68 := rfl
  have hp : State.reset.params.cscGBinary64 = false := rfl
  rw [hW, hH, hp]
  exact ⟨by decide, rfl, by decide, by simp [frame, testFrame], by decide, protocolResult_testFrame⟩

/-- Body 'h' changed to 'i', its last symbol alone. -/
theorem witness_OneChangedBodyByteIsDetected :
    let W : Dim := 16
    let H : Dim := 68
    let frame := testFrame (headed [1, 2, 2, 0])
    let frame' := testFrame (headed [1, 2, 2, 1])
    let x := frameSymbol false frame W.toNat H.toNat
    let x' := frameSymbol false frame' W.toNat H.toNat
    State.reset.params.Legal ∧ State.reset.busy = false ∧ LegalDims State.reset.params W.toNat H.toNat ∧
    frame.length = 3 * (W.toNat * H.toNat) / 2 ∧ frame'.length = 3 * (W.toNat * H.toNat) / 2 ∧
    protocolResult (W.toNat / 4 * (H.toNat / 4)) x = .ok [0x68] ∧ 0 < [(0x68 : Byte)].length ∧
    (∀ q, q < 64 → x' q = x q) ∧
    (∀ j, j < [(0x68 : Byte)].length → j ≠ 0 → streamByte x' (64 + 4 * j) = streamByte x (64 + 4 * j)) ∧
    streamByte x' (64 + 4 * 0) ≠ streamByte x (64 + 4 * 0) := by
  intro W H frame frame' x x'
  have hx (q : Nat) (hq : q < 68) : x q = headed [1, 2, 2, 0] q := frameSymbol_testFrame _ q hq
  have hx' (q : Nat) (hq : q < 68) : x' q = headed [1, 2, 2, 1] q := frameSymbol_testFrame _ q hq
  refine ⟨by decide, rfl, by decide, by simp [frame, testFrame, W, H], by simp [frame', testFrame, W, H], ?_, by decide, ?_, ?_, ?_⟩
  · have hW : W.toNat = 16 := rfl
    have hH : H.toNat = 68 := rfl
    simp only [x, hW, hH]
    exact protocolResult_testFrame
  · intro q hq
    rw [hx q (by omega), hx' q (by omega)]
    revert q
    decide
  · intro j hj h0
    exact absurd hj (by simp; omega)
  · unfold streamByte
    rw [hx _ (by norm_num), hx _ (by norm_num), hx _ (by norm_num), hx _ (by norm_num), hx' _ (by norm_num), hx' _ (by norm_num), hx' _ (by norm_num), hx' _ (by norm_num)]
    decide

end Sys2Proof.Tests
end

section
/-! The integer square root of the classifier's score (R12, R162): the digit recursion computes Mathlib's `Nat.sqrt`. -/

namespace Sys2Proof.Proofs

open Sys2Proof.Machine

/-- With `d` digits to go, the root sought lies less than `2 ^ d` above the digits `r` found so far; each digit halves
that window. -/
theorem isqrtFrom_eq_sqrt {n : Nat} : ∀ {d r : Nat}, r ≤ n.sqrt → n.sqrt < r + 2 ^ d → isqrtFrom d n r = n.sqrt
  | 0, r, hle, hlt => by
    rw [isqrtFrom]
    omega
  | d + 1, r, hle, hlt => by
    rw [Nat.pow_succ] at hlt
    by_cases hdigit : r + 2 ^ d ≤ n.sqrt
    · rw [isqrtFrom, if_pos (Nat.le_sqrt.mp hdigit)]
      exact isqrtFrom_eq_sqrt hdigit (by omega)
    · rw [isqrtFrom, if_neg (mt Nat.le_sqrt.mpr hdigit)]
      exact isqrtFrom_eq_sqrt hle (by omega)

/-- `isqrt` starts with enough digits: at least half as many as `n` has. -/
theorem sqrt_lt_two_pow_half_log2 (n : Nat) : n.sqrt < 2 ^ (n.log2 / 2 + 1) := by
  rw [Nat.sqrt_lt, ← Nat.pow_add]
  calc n < 2 ^ (n.log2 + 1) := Nat.lt_log2_self
    _ ≤ 2 ^ (n.log2 / 2 + 1 + (n.log2 / 2 + 1)) := Nat.pow_le_pow_right (by decide) (by omega)

theorem isqrt_eq_sqrt (n : Nat) : isqrt n = n.sqrt :=
  isqrtFrom_eq_sqrt (Nat.zero_le _) (by rw [Nat.zero_add]; exact sqrt_lt_two_pow_half_log2 n)

/-- Settles O17: `isqrt` is `Nat.sqrt`, which has the defining property of R12. -/
theorem isqrtIsTheLargestRoot : Obligations.IsqrtIsTheLargestRoot := by
  intro n
  rw [isqrt_eq_sqrt]
  exact ⟨Nat.sqrt_le n, fun _ hr => Nat.le_sqrt.mpr hr⟩

end Sys2Proof.Proofs
end

section
/-! Reading and writing registers by their word offset (R33 to R48, R80, R81). -/

namespace Sys2Proof.Proofs

open Sys2Proof.Machine Sys2Proof.Laws

/-- Only a register's own offset selects it (R33). -/
theorem eq_offset_of_regAt {off : Word} {r : Reg} (h : regAt off = some r) : off = r.offset := by
  unfold regAt at h
  split at h <;> cases h <;> exact BitVec.eq_of_toNat_eq ‹_›

theorem regAt_eq_none {off : Word} (h : off.toNat % 4 ≠ 0 ∨ 0x44 < off.toNat) : regAt off = none := by
  have hoffset (r : Reg) : r.offset.toNat % 4 = 0 ∧ r.offset.toNat ≤ 0x44 := by cases r <;> decide
  cases hr : regAt off with
  | none => rfl
  | some r =>
    have hr := hoffset r
    rw [← eq_offset_of_regAt ‹regAt off = some r›] at hr
    omega

/-- Writes to RESULT, BSUM, OUTCOUNT, the derived registers and the constants are ignored (R48). -/
theorem writeRegister_readOnly {off : Word}
    (h : off.toNat ∈ [0x1C, 0x20, 0x28, 0x2C, 0x30, 0x34, 0x38, 0x3C, 0x40, 0x44]) (v : Word) (s : State) :
    writeRegister off v s = s := by
  obtain ⟨n, hn⟩ : ∃ n, n = off.toNat := ⟨_, rfl⟩
  obtain rfl : off = BitVec.ofNat 32 n := by rw [hn, BitVec.ofNat_toNat, BitVec.setWidth_eq]
  rw [← hn] at h
  fin_cases h <;> rfl

/-- A concatenation as the number it is. -/
theorem toNat_append_eq_add {m n : Nat} (x : BitVec m) (y : BitVec n) :
    (x ++ y).toNat = 2 ^ n * x.toNat + y.toNat := by
  rw [BitVec.toNat_append, ← Nat.shiftLeft_add_eq_or_of_lt y.isLt, Nat.shiftLeft_eq, Nat.mul_comm]

theorem toNat_ctrlWord (s : State) : (ctrlWord s).toNat = 2 * s.ie.toNat := by
  simp only [ctrlWord, toNat_append_eq_add, BitVec.toNat_ofBool, BitVec.toNat_ofNat]
  omega

theorem toNat_statusWord (s : State) : (statusWord s).toNat =
    s.busy.toNat + 2 * s.done.toNat + 4 * s.err.toNat + 8 * s.lost.toNat + 16 * s.pv.toNat +
      256 * s.errcode.code.toNat := by
  simp only [statusWord, toNat_append_eq_add, BitVec.toNat_ofBool, BitVec.toNat_ofNat]
  omega

/-- Settles O31: the fields stand side by side from bit 0, with zeros between them. -/
theorem controlAndStatusLayout : Obligations.ControlAndStatusLayout := fun s =>
  ⟨toNat_ctrlWord s, toNat_statusWord s⟩

/-- GRIDW and GRIDH are 14-bit values (R45). -/
theorem dim_div_four_lt (d : Dim) : d.toNat / 4 < 2 ^ 32 := by
  have := d.isLt
  omega

/-- CAPACITY, between -16 and 2^26, is read without wrap by a signed word (R46). -/
theorem toInt_capacity (s : State) : s32 (readReg s .capacity) = capacityBytes s := by
  have hcells := cellCount_lt s
  have hrange : -(2 ^ 31) ≤ capacityBytes s ∧ capacityBytes s < 2 ^ 31 := by
    unfold capacityBytes
    omega
  exact BitVec.toInt_ofInt_eq_self (by decide) hrange.1 hrange.2

/-- Settles O32: each register's value is below the bound of its word, and the four offsets are read only. -/
theorem derivedRegistersReadTheGrid : Obligations.DerivedRegistersReadTheGrid := by
  intro s cells
  have hcells : cells < 2 ^ 28 := cellCount_lt s
  exact ⟨toNat_u32 _ (dim_div_four_lt s.width), toNat_u32 _ (dim_div_four_lt s.height),
    toNat_u32 cells (hcells.trans (by decide)), hcells, toInt_capacity s, fun _ => ⟨rfl, rfl, rfl, rfl⟩⟩

/-- Settles O33: no register stands at a reserved or unaligned offset. -/
theorem reservedOffsetsAreInert : Obligations.ReservedOffsetsAreInert := by
  refine fun s off v => ⟨fun h => ?_, fun h => writeRegister_readOnly h v s, rfl⟩
  have hnone : regAt off = none := regAt_eq_none h
  simp [hostAccess, pushReply, readRegister, writeRegister, hnone]

/-- A 16-bit dimension reads as itself (R37). -/
theorem toNat_setWidth_dim (d : Dim) : (d.setWidth 32).toNat = d.toNat :=
  BitVec.toNat_setWidth_of_le (by decide)

/-- Settles O60: under R9 every constant but the largest FRAME_DEPTH fits its word. -/
theorem registerReadsReturnTheirValues : Obligations.RegisterReadsReturnTheirValues := by
  intro s
  refine ⟨fun _ => rfl, toNat_setWidth_dim _, toNat_setWidth_dim _, rfl, rfl, rfl, rfl, rfl, rfl, ?_⟩
  rintro ⟨-, -, -, hpix, -, hsym, -⟩
  refine ⟨toNat_u32 _ (by omega), toNat_u32 _, fun hframe => ?_, toNat_u32 _ (by omega)⟩
  show u32 s.params.frameDepth = 0
  rw [hframe]
  rfl

theorem writeWidth_idle {s : State} (hidle : s.busy = false) (v : Word) :
    writeWidth v s = { s with width := v.setWidth 16, pv := false } := by
  simp [writeWidth, hidle]

theorem writeHeight_idle {s : State} (hidle : s.busy = false) (v : Word) :
    writeHeight v s = { s with height := v.setWidth 16, pv := false } := by
  simp [writeHeight, hidle]

theorem writeSymcount_idle {s : State} (hidle : s.busy = false) (v : Word) :
    writeSymcount v s = { s with symcount := u32 (min v.toNat s.params.symDepth) } := by
  simp [writeSymcount, hidle]

/-- Settles O34: what is stored is the low half of the word, and it reads back zero-extended. -/
theorem dimensionWritesClearPixelValid : Obligations.DimensionWritesClearPixelValid := by
  intro s v hidle
  have hw : hostAccess (.regWrite 0x08 v) s = _ := writeWidth_idle hidle v
  have hh : hostAccess (.regWrite 0x0C v) s = _ := writeHeight_idle hidle v
  have hread : ((v.setWidth 16).setWidth 32).toNat = v.toNat % 2 ^ 16 :=
    (toNat_setWidth_dim _).trans (BitVec.toNat_setWidth ..)
  rw [hw, hh]
  exact ⟨rfl, rfl, hread, hread⟩

/-- Settles O35: the smaller of a word and SYM_DEPTH fits a word. -/
theorem symcountAndOperandWrites : Obligations.SymcountAndOperandWrites := by
  refine fun s v => ⟨fun hidle => ⟨u32 (min v.toNat s.params.symDepth), ?_, writeSymcount_idle hidle v⟩, rfl, rfl⟩
  exact toNat_u32 _ ((Nat.min_le_left ..).trans_lt v.isLt)

end Sys2Proof.Proofs
end

section
/-! The invariant of the block (R9, R43, R44, R54, R147, R221): every step keeps it. -/

namespace Sys2Proof.Proofs

open Sys2Proof.Machine Sys2Proof.Laws

/-- The invariant speaks of no flag and no register but these: of STATUS only BUSY, DONE, ERRCODE and PV, and
not of IE, the operands, the results, CUR or the model's queues. -/
theorem inv_of_eq_but_status {s t : State} (h : Inv s)
    (ht : t = { s with ie := t.ie, busy := t.busy, done := t.done, err := t.err, lost := t.lost,
                       errcode := t.errcode, arg0 := t.arg0, arg1 := t.arg1, result := t.result, bsum := t.bsum,
                       cur := t.cur, events := t.events, replies := t.replies })
    (hbusy : t.busy = true → t.done = false ∧ t.errcode = .none) : Inv t := by
  rw [ht]
  exact ⟨h.params, h.frame, h.pix, h.sym, h.out, h.symcount, h.outcount, h.pvDims, h.pvPix, hbusy⟩

theorem inv_succeed {s : State} (h : Inv s) : Inv (succeed s) := inv_of_eq_but_status h rfl nofun

theorem inv_takeError {s : State} (h : Inv s) (e : ErrCode) : Inv (takeError e s) :=
  inv_of_eq_but_status h rfl nofun

theorem inv_events {s : State} (h : Inv s) (es : List Event) : Inv { s with events := es } :=
  inv_of_eq_but_status h rfl h.busyStatus

theorem inv_pushReply {s : State} (h : Inv s) (r : Reply) : Inv (pushReply r s) :=
  inv_of_eq_but_status h rfl h.busyStatus

theorem inv_clearStatus {s : State} (h : Inv s) (v : Word) : Inv (clearStatus v s) := by
  refine inv_of_eq_but_status h rfl fun hbusy => ?_
  obtain ⟨hdone, herr⟩ := h.busyStatus hbusy
  exact ⟨by simp [hdone], herr⟩

theorem inv_issue {s : State} (h : Inv s) (w : Word) : Inv (issue w s) :=
  inv_of_eq_but_status h rfl fun _ => ⟨rfl, rfl⟩

/-- New dimensions with PV cleared: nothing is claimed of PIX any more (R38). -/
theorem inv_dimensions {s : State} (h : Inv s) (W H : Dim) :
    Inv { s with width := W, height := H, pv := false } :=
  { h with pvDims := nofun, pvPix := nofun }

theorem inv_symcount {s : State} (h : Inv s) (n : Nat) (hn : n ≤ s.params.symDepth) :
    Inv { s with symcount := u32 n } :=
  { h with symcount := (BitVec.toNat_ofNat .. ▸ Nat.mod_le ..).trans hn }

/-- Each memory of a state that meets the invariant is in order. -/
theorem memOk_of_inv {s : State} (h : Inv s) (sp : Space) : MemOk s.params sp (s.mem sp) s.draws := by
  cases sp with
  | frame => exact h.frame
  | pix => exact h.pix
  | sym => exact h.sym
  | out => exact h.out

/-! ### The commands -/

/-- CONVERT writes a byte for every byte of the matrix, inside PIX by its own check (R146, R147). -/
theorem inv_converted {s : State} (h : Inv s) (hdims : LegalDims s.params (frameW s) (frameH s)) :
    Inv (converted s) := by
  have hfits : 3 * (frameW s * frameH s) ≤ s.params.extent .pix := by
    obtain ⟨-, -, -, -, hcap, -⟩ := hdims
    exact Nat.mul_le_mul_left 3 hcap
  refine inv_succeed { h with
    pix := MemOk_fill h.pix _ _ hfits fun _ => rfl
    pvDims := fun _ => hdims
    pvPix := fun _ a ha => ?_ }
  have hcell : cellAt (converted s).pix.cells a = some (convertedByte s a) :=
    (cellAt_fill ..).trans (if_pos ha)
  exact Option.isSome_iff_exists.mpr ⟨_, hcell⟩

/-- A symbol is as narrow as SYM holds it (R52). -/
theorem narrow_symByte (x : Sym) : narrow .sym (symByte x) = symByte x := by
  revert x
  decide

/-- SCAN writes SYM and SYMCOUNT within SYM_DEPTH by its own check (R183). -/
theorem inv_scanned {s : State} (h : Inv s) (hfits : operand1 s - operand0 s ≤ s.params.symDepth) :
    Inv (scanned s) :=
  inv_succeed <| inv_symcount
    (s := { s with sym := s.sym.fill _ fun k => symByte (cellSymbol s (operand0 s + k)) })
    { h with sym := MemOk_fill h.sym _ _ hfits fun _ => narrow_symByte _ } _ hfits

/-- PACKB's range lies within SYMCOUNT, so its bytes fit OUT (R200). -/
theorem inv_packed {s : State} (h : Inv s) (o : Order)
    (hrange : operand0 s + operand1 s ≤ s.symcount.toNat) : Inv (packed o s) := by
  have hfits : operand1 s / 4 ≤ s.params.outDepth :=
    Nat.div_le_div_right ((Nat.le_add_left ..).trans (hrange.trans h.symcount))
  have hout : Inv { s with out := s.out.fill (operand1 s / 4) (packedByte o s (operand0 s))
                           outcount := u32 (operand1 s / 4) } :=
    { h with
      out := MemOk_fill h.out _ _ hfits fun _ => rfl
      outcount := (BitVec.toNat_ofNat .. ▸ Nat.mod_le ..).trans hfits }
  exact inv_of_eq_but_status hout rfl nofun

theorem inv_exec {s t : State} (h : Inv s) (i : Instr) (ht : exec i s = .next t) : Inv t := by
  obtain ⟨e, -, he⟩ | ⟨-, he⟩ | ⟨-, hdims, he⟩ | ⟨-, he⟩ | ⟨-, -, hfits, he⟩ | ⟨o, -, hrange, he⟩ | ⟨o, -, he⟩ :=
    exec_cases i s <;> rw [he] at ht <;> cases ht
  · exact inv_takeError h e
  · exact inv_succeed h
  · exact inv_converted h hdims
  · exact inv_of_eq_but_status h rfl nofun
  · exact inv_scanned h hfits
  · exact inv_packed h o hrange
  · exact inv_of_eq_but_status h rfl nofun

theorem inv_engineStep {s t : State} (h : Inv s) (ht : engineStep s = .next t) : Inv t := by
  obtain ⟨-, he⟩ | ⟨-, -, he⟩ | ⟨-, i, -, he⟩ := engineStep_cases s <;> rw [he] at ht
  · cases ht
    exact h
  · cases ht
    exact inv_takeError h _
  · exact inv_exec h i ht

/-! ### Resets -/

/-- The registers' reset values meet the invariant, whatever the memories hold. -/
theorem inv_resetRegisters {s : State} (hparams : s.params.Legal)
    (hmem : ∀ sp, MemOk s.params sp (s.mem sp) s.draws) : Inv (resetRegisters s) where
  params := hparams
  frame := hmem .frame
  pix := hmem .pix
  sym := hmem .sym
  out := hmem .out
  symcount := Nat.zero_le _
  outcount := Nat.zero_le _
  pvDims := nofun
  pvPix := nofun
  busyStatus := nofun

/-- A forgotten space holds the draw just used up; the other memories are as they were. -/
theorem memOk_forget {s : State} (h : Inv s) (sp tp : Space) :
    MemOk s.params tp ((forget sp s).mem tp) (s.draws + 1) := by
  by_cases htp : tp = sp
  · subst htp
    rw [mem_forget]
    exact MemOk_unspecified _ _ _ _ (Nat.lt_succ_self _)
  · rw [mem_forget_of_ne _ _ _ htp]
    exact MemOk_mono (memOk_of_inv h tp) (Nat.le_succ _)

theorem inv_softReset {s : State} (h : Inv s) : Inv (softReset s) := by
  obtain ⟨-, he⟩ | ⟨sp, -, he⟩ := softReset_cases s <;> rw [he]
  · exact inv_resetRegisters h.params (memOk_of_inv h)
  · refine inv_resetRegisters ?_ fun tp => ?_
    · simpa using h.params
    · simpa using memOk_forget h sp tp

theorem inv_powerOnReset {s : State} (h : Inv s) : Inv (powerOnReset s) :=
  inv_resetRegisters
    (s := { s with
      frame := Mem.unspecified s.draws, pix := Mem.unspecified s.draws
      sym := Mem.unspecified s.draws, out := Mem.unspecified s.draws, draws := s.draws + 1 })
    h.params fun sp => by cases sp <;> exact MemOk_unspecified _ _ _ _ (Nat.lt_succ_self _)

/-- Settles O47: the parameters at reset are legal and nothing is written. -/
theorem resetMeetsTheInvariant : Obligations.ResetMeetsTheInvariant :=
  inv_resetRegisters (s := State.reset) (by decide) fun sp => by
    cases sp <;> exact MemOk_unspecified _ _ _ _ Nat.zero_lt_one

/-! ### The host's accesses -/

theorem inv_writeRegister {s : State} (h : Inv s) (off v : Word) : Inv (writeRegister off v s) := by
  obtain he | ⟨-, he⟩ | ⟨-, -, he⟩ | ⟨-, -, he⟩ | ⟨-, he⟩ | ⟨-, -, he⟩ | ⟨-, -, he⟩ | ⟨-, he⟩ | ⟨-, he⟩ | ⟨-, -, he⟩ |
    ⟨-, -, he⟩ := writeRegister_cases off v s <;> rw [he]
  · exact h
  · exact inv_of_eq_but_status h rfl h.busyStatus
  · exact inv_softReset h
  · exact inv_of_eq_but_status h rfl h.busyStatus
  · exact inv_clearStatus h v
  · exact inv_dimensions h _ _
  · exact inv_dimensions h _ _
  · exact inv_of_eq_but_status h rfl h.busyStatus
  · exact inv_of_eq_but_status h rfl h.busyStatus
  · exact inv_issue h v
  · exact inv_symcount h _ (Nat.min_le_right ..)

theorem inv_setMem {s : State} (h : Inv s) {sp : Space} (hsp : hostWritable sp = true) {m : Mem}
    (hm : MemOk s.params sp m s.draws) : Inv (s.setMem sp m) := by
  cases sp with
  | frame => exact { h with frame := hm }
  | sym => exact { h with sym := hm }
  | pix | out => cases hsp

theorem inv_storeByte {s : State} (h : Inv s) (sp : Space) (a : Word) (b : Byte) : Inv (storeByte sp a b s) := by
  obtain ⟨-, he⟩ | ⟨-, -, -, he⟩ | ⟨hsp, ha, -, he⟩ := storeByte_cases sp a b s <;> rw [he]
  · exact h
  · exact inv_of_eq_but_status h rfl h.busyStatus
  · exact inv_setMem h hsp (MemOk_put (memOk_of_inv h sp) _ _ ha)

/-- Using up a draw leaves every memory's own draw in the past. -/
theorem inv_draw {s : State} (h : Inv s) : Inv { s with draws := s.draws + 1 } :=
  { h with
    frame := MemOk_mono h.frame (Nat.le_succ _)
    pix := MemOk_mono h.pix (Nat.le_succ _)
    sym := MemOk_mono h.sym (Nat.le_succ _)
    out := MemOk_mono h.out (Nat.le_succ _) }

theorem inv_loadByte {s : State} (h : Inv s) (sp : Space) (a : Word) : Inv (loadByte sp a s).2 := by
  obtain ⟨-, he⟩ | ⟨-, he⟩ := loadByte_cases sp a s <;> rw [he]
  · exact h
  · exact inv_draw h

theorem inv_hostAccess {s : State} (h : Inv s) (op : HostOp) : Inv (hostAccess op s) := by
  cases op with
  | regRead off => exact inv_pushReply h _
  | regWrite off v => exact inv_writeRegister h off v
  | memRead sp a => exact inv_pushReply (inv_loadByte h sp a) _
  | memWrite sp a b => exact inv_storeByte h sp a b

/-- Settles O48: the engine's turn, each host operation and the power-on reset keep the invariant. -/
theorem stepKeepsTheInvariant : Obligations.StepKeepsTheInvariant := by
  intro s t h ht
  obtain ⟨-, he⟩ | ⟨op, rest, -, he⟩ | ⟨rest, -, he⟩ | ⟨rest, -, he⟩ := step_cases s <;> rw [he] at ht
  · exact inv_engineStep h ht
  · cases ht
    exact inv_hostAccess (inv_events h rest) op
  · exact inv_engineStep (inv_events h rest) ht
  · cases ht
    exact inv_powerOnReset (inv_events h rest)

end Sys2Proof.Proofs
end

section
/-! Which memories an event can change (R50 to R53), and that a store reads back (R82). -/

namespace Sys2Proof.Proofs

open Sys2Proof.Machine Sys2Proof.Laws

/-! ### The decoder, backwards -/

/-- Fields that decode to a command are that command's fields (R113, R116). -/
theorem eq_fields_of_decodeFields {f : FormatC} {i : Instr} (h : decodeFields f = .ok i) : f = i.fields := by
  obtain ⟨op, o, rsv⟩ := f
  unfold decodeFields at h
  split_ifs at h with hrsv hpackb hpacki ho hnop hconvert hclassify hscan <;> cases h
  · cases o <;> simp_all [Instr.fields, Instr.op, Instr.orderBit, orderOf]
  · cases o <;> simp_all [Instr.fields, Instr.op, Instr.orderBit, orderOf]
  all_goals simp_all [Instr.fields, Instr.op, Instr.orderBit]

/-- The three fields of a word make up the word (R111). -/
theorem wordOf_fieldsOf (w : Word) : wordOf (fieldsOf w) = w := by
  apply BitVec.eq_of_toNat_eq
  have hbit : (w.getLsbD 8).toNat = w.toNat / 2 ^ 8 % 2 := Nat.toNat_testBit ..
  have hw := w.isLt
  simp only [wordOf, fieldsOf, toNat_append_eq_add, BitVec.toNat_ofBool, BitVec.extractLsb'_toNat,
    Nat.shiftRight_eq_div_pow, hbit]
  omega

/-- Only a command's own word decodes to it (R113). -/
theorem eq_encode_of_decode {w : Word} {i : Instr} (h : decode w = .ok i) : w = encode i := by
  rw [encode, ← eq_fields_of_decodeFields h, wordOf_fieldsOf]

/-- The commands that write a space, by their words (R91): FRAME has none. -/
theorem writtenSpace_eq_some_iff {w : Word} {sp : Space} : writtenSpace w = some sp ↔
    (sp = .pix ∧ w = 0x00000001) ∨ (sp = .sym ∧ w = 0x00000003) ∨
      (sp = .out ∧ (w = 0x00000004 ∨ w = 0x00000104)) := by
  constructor
  · intro h
    unfold writtenSpace at h
    cases hd : decode w with
    | error r => simp [hd] at h
    | ok i =>
      have hw := eq_encode_of_decode hd
      rw [hd] at h
      cases i with
      | nop | classify | packi o => cases h
      | convert =>
        cases h
        exact .inl ⟨rfl, hw⟩
      | scan =>
        cases h
        exact .inr (.inl ⟨rfl, hw⟩)
      | packb o =>
        cases h
        cases o with
        | msFirst => exact .inr (.inr ⟨rfl, .inl hw⟩)
        | lsFirst => exact .inr (.inr ⟨rfl, .inr hw⟩)
  · rintro (⟨rfl, rfl⟩ | ⟨rfl, rfl⟩ | ⟨rfl, rfl | rfl⟩) <;> decide

/-- A running command's destination is the space its word writes. -/
theorem busySpace_eq_some {s : State} {sp : Space} (h : busySpace s = some sp) :
    s.busy = true ∧ writtenSpace s.cur.word = some sp := by
  unfold busySpace at h
  split at h
  · exact ⟨‹_›, h⟩
  · cases h

/-! ### Who changes a memory -/

/-- A command leaves every space but its destination alone (R91). -/
theorem exec_mem {i : Instr} {s t : State} {sp : Space} (hd : decode s.cur.word = .ok i)
    (ht : exec i s = .next t) (hsp : writtenSpace s.cur.word ≠ some sp) : t.mem sp = s.mem sp := by
  unfold writtenSpace at hsp
  rw [hd] at hsp
  obtain ⟨e, -, he⟩ | ⟨-, he⟩ | ⟨rfl, -, he⟩ | ⟨-, he⟩ | ⟨rfl, -, -, he⟩ | ⟨o, rfl, -, he⟩ | ⟨o, -, he⟩ :=
    exec_cases i s <;> rw [he] at ht <;> cases ht
  · exact mem_takeError ..
  · exact mem_succeed ..
  · exact mem_setMem_of_ne s .pix _ sp fun h => hsp (h ▸ rfl)
  · cases sp <;> rfl
  · exact mem_setMem_of_ne s .sym _ sp fun h => hsp (h ▸ rfl)
  · exact mem_setMem_of_ne s .out _ sp fun h => hsp (h ▸ rfl)
  · cases sp <;> rfl

theorem engineStep_mem {s t : State} {sp : Space} (ht : engineStep s = .next t) (hsp : busySpace s ≠ some sp) :
    t.mem sp = s.mem sp := by
  obtain ⟨-, he⟩ | ⟨-, -, he⟩ | ⟨hbusy, i, hd, he⟩ := engineStep_cases s <;> rw [he] at ht
  · cases ht
    rfl
  · cases ht
    exact mem_takeError ..
  · rw [busySpace, if_pos hbusy] at hsp
    exact exec_mem hd ht hsp

/-- A soft reset forgets a running command's destination only (R293). -/
theorem softReset_mem {s : State} {sp : Space} (hsp : busySpace s ≠ some sp) : (softReset s).mem sp = s.mem sp := by
  obtain ⟨-, he⟩ | ⟨dest, hdest, he⟩ := softReset_cases s <;> rw [he]
  · exact mem_resetRegisters ..
  · rw [mem_resetRegisters, mem_forget_of_ne s dest sp fun h => hsp (h ▸ hdest)]

/-- The one register write that can change a memory is the soft reset of a running block. -/
theorem writeRegister_mem {off v : Word} {s : State} {sp : Space} (hsp : busySpace s ≠ some sp) :
    (writeRegister off v s).mem sp = s.mem sp := by
  obtain he | ⟨-, he⟩ | ⟨-, -, he⟩ | ⟨-, -, he⟩ | ⟨-, he⟩ | ⟨-, -, he⟩ | ⟨-, -, he⟩ | ⟨-, he⟩ | ⟨-, he⟩ | ⟨-, -, he⟩ |
    ⟨-, -, he⟩ := writeRegister_cases off v s <;> rw [he]
  case inr.inr.inl => exact softReset_mem hsp
  all_goals cases sp <;> rfl

theorem loadByte_mem (tp : Space) (a : Word) (s : State) (sp : Space) :
    (loadByte tp a s).2.mem sp = s.mem sp := by
  obtain ⟨-, he⟩ | ⟨-, he⟩ := loadByte_cases tp a s <;> rw [he]
  cases sp <;> rfl

/-- A host operation changes a space by a store into it on an idle block, or by aborting its writer. -/
theorem hostAccess_mem {op : HostOp} {s : State} {sp : Space} (hsp : busySpace s ≠ some sp)
    (hchange : (hostAccess op s).mem sp ≠ s.mem sp) :
    ∃ a b, op = .memWrite sp a b ∧ s.busy = false ∧ hostWritable sp = true := by
  cases op with
  | regRead off => exact absurd (mem_pushReply ..) hchange
  | regWrite off v => exact absurd (writeRegister_mem hsp) hchange
  | memRead tp a => exact absurd ((mem_pushReply ..).trans (loadByte_mem tp a s sp)) hchange
  | memWrite tp a b =>
    change (storeByte tp a b s).mem sp ≠ _ at hchange
    obtain ⟨-, he⟩ | ⟨-, -, -, he⟩ | ⟨hwritable, -, hidle, he⟩ := storeByte_cases tp a b s <;> rw [he] at hchange
    · exact absurd rfl hchange
    · exact absurd (mem_loseWrite ..) hchange
    · obtain rfl : sp = tp := by
        by_contra hne
        exact hchange (mem_setMem_of_ne s tp _ sp hne)
      exact ⟨a, b, rfl, hidle, hwritable⟩

/-- The events that can change a space: a power-on reset, a host store on an idle block, and the completion or
the abort of the command that writes it. -/
theorem step_mem {s t : State} {sp : Space} (ht : step s = .next t) (hchange : t.mem sp ≠ s.mem sp) :
    (∃ rest, s.events = .powerOn :: rest) ∨
    (∃ rest a b, s.events = .host (.memWrite sp a b) :: rest ∧ s.busy = false ∧ hostWritable sp = true) ∨
    (s.busy = true ∧ writtenSpace s.cur.word = some sp) := by
  by_cases hsp : busySpace s = some sp
  · exact .inr (.inr (busySpace_eq_some hsp))
  · obtain ⟨-, he⟩ | ⟨op, rest, hev, he⟩ | ⟨rest, -, he⟩ | ⟨rest, hev, -⟩ := step_cases s
    · exact absurd (engineStep_mem (he ▸ ht) hsp) hchange
    · rw [he] at ht
      cases ht
      obtain ⟨a, b, rfl, h⟩ := hostAccess_mem (s := { s with events := rest }) hsp hchange
      exact .inr (.inl ⟨rest, a, b, hev, h⟩)
    · rw [he] at ht
      exact absurd (engineStep_mem (s := { s with events := rest }) ht hsp) hchange
    · exact .inl ⟨rest, hev⟩

/-- Settles O46: `step_mem` for each space, with the words that write it. -/
theorem onlyTheirWritersChangeMemories : Obligations.OnlyTheirWritersChangeMemories := by
  intro s t ht
  refine ⟨fun h => ?_, fun h => ?_, fun h => ?_, fun h => ?_⟩
  · obtain ⟨rest, hev⟩ | ⟨rest, a, b, hev, hidle, -⟩ | ⟨-, hw⟩ := step_mem (sp := .frame) ht h
    · exact ⟨rest, .inl hev⟩
    · exact ⟨rest, .inr ⟨a, b, hev, hidle⟩⟩
    · simp [writtenSpace_eq_some_iff] at hw
  · obtain hev | ⟨-, -, -, -, -, hwritable⟩ | ⟨hbusy, hw⟩ := step_mem (sp := .pix) ht h
    · exact .inl hev
    · cases hwritable
    · exact .inr ⟨hbusy, by simpa [writtenSpace_eq_some_iff] using hw⟩
  · obtain ⟨rest, hev⟩ | ⟨rest, a, b, hev, hidle, -⟩ | ⟨hbusy, hw⟩ := step_mem (sp := .sym) ht h
    · exact .inl ⟨rest, .inl hev⟩
    · exact .inl ⟨rest, .inr ⟨a, b, hev, hidle⟩⟩
    · exact .inr ⟨hbusy, by simpa [writtenSpace_eq_some_iff] using hw⟩
  · obtain hev | ⟨-, -, -, -, -, hwritable⟩ | ⟨hbusy, hw⟩ := step_mem (sp := .out) ht h
    · exact .inl hev
    · cases hwritable
    · exact .inr ⟨hbusy, by simpa [writtenSpace_eq_some_iff] using hw⟩

/-! ### The host's stores -/

/-- A store inside a space the host may write, on an idle block. -/
theorem storeByte_inside {s : State} {sp : Space} {a : Word} (hidle : s.busy = false)
    (hwritable : hostWritable sp = true) (ha : a.toNat < s.params.extent sp) (b : Byte) :
    storeByte sp a b s = s.setMem sp ((s.mem sp).put sp a.toNat b) := by
  simp [storeByte, hidle, hwritable, ha]

theorem storeByte_pastEnd {s : State} {sp : Space} {a : Word} (ha : s.params.extent sp ≤ a.toNat) (b : Byte) :
    storeByte sp a b s = s := by
  simp [storeByte, ha]

theorem storeByte_readOnly {sp : Space} (hreadOnly : hostWritable sp = false) (a : Word) (b : Byte) (s : State) :
    storeByte sp a b s = s := by
  simp [storeByte, hreadOnly]

/-- A byte put in a space reads back as the space holds it. -/
theorem peek_setMem_put_self (s : State) (sp : Space) (a : Nat) (b : Byte) :
    peek (s.setMem sp ((s.mem sp).put sp a b)) sp a = narrow sp b := by
  simp [peek]

theorem peek_setMem_put_of_ne (s : State) (sp : Space) {a x : Nat} (b : Byte) (hx : x ≠ a) :
    peek (s.setMem sp ((s.mem sp).put sp a b)) sp x = peek s sp x := by
  simp [peek, byteAt_put_of_ne _ _ _ _ _ hx]

/-- SYM keeps bits 1:0 (R52). -/
theorem toNat_narrow_sym (b : Byte) : (narrow .sym b).toNat = b.toNat % 4 :=
  (BitVec.toNat_and ..).trans (Nat.and_two_pow_sub_one_eq_mod _ 2)

/-- Settles O40: a store inside FRAME or SYM is one `Mem.put`; every other store is ignored. -/
theorem hostStoreThenLoad : Obligations.HostStoreThenLoad := by
  intro s a b hidle
  refine ⟨fun ha => ⟨_, rfl, ?_⟩, fun ha => ⟨_, rfl, ?_⟩, fun ha => storeByte_pastEnd (sp := .frame) ha b,
    fun ha => storeByte_pastEnd (sp := .sym) ha b, storeByte_readOnly rfl a b s, storeByte_readOnly rfl a b s⟩
  · have he : hostAccess (.memWrite .frame a b) s = _ := storeByte_inside hidle rfl ha b
    rw [he]
    exact ⟨peek_setMem_put_self .., fun _ hx => peek_setMem_put_of_ne _ _ _ hx, rfl⟩
  · have he : hostAccess (.memWrite .sym a b) s = _ := storeByte_inside hidle rfl ha b
    rw [he, peek_setMem_put_self]
    exact ⟨toNat_narrow_sym b, fun _ hx => peek_setMem_put_of_ne _ _ _ hx, rfl⟩

end Sys2Proof.Proofs
end

section
/-! The host and a running command do not reach each other (R31, R39, R47, R55, R302). -/

namespace Sys2Proof.Proofs

open Sys2Proof.Machine Sys2Proof.Laws

/-! ### The constants -/

theorem softReset_params (s : State) : (softReset s).params = s.params := by
  obtain ⟨-, he⟩ | ⟨sp, -, he⟩ := softReset_cases s <;> simp [he]

theorem writeRegister_params (off v : Word) (s : State) : (writeRegister off v s).params = s.params := by
  obtain he | ⟨-, he⟩ | ⟨-, -, he⟩ | ⟨-, -, he⟩ | ⟨-, he⟩ | ⟨-, -, he⟩ | ⟨-, -, he⟩ | ⟨-, he⟩ | ⟨-, he⟩ | ⟨-, -, he⟩ |
    ⟨-, -, he⟩ := writeRegister_cases off v s <;> rw [he]
  case inr.inr.inl => exact softReset_params s
  all_goals rfl

theorem loadByte_params (sp : Space) (a : Word) (s : State) : (loadByte sp a s).2.params = s.params := by
  obtain ⟨-, he⟩ | ⟨-, he⟩ := loadByte_cases sp a s <;> rw [he]

theorem storeByte_params (sp : Space) (a : Word) (b : Byte) (s : State) :
    (storeByte sp a b s).params = s.params := by
  obtain ⟨-, he⟩ | ⟨-, -, -, he⟩ | ⟨-, -, -, he⟩ := storeByte_cases sp a b s <;> simp [he]

theorem hostAccess_params (op : HostOp) (s : State) : (hostAccess op s).params = s.params := by
  cases op with
  | regRead off => rfl
  | regWrite off v => exact writeRegister_params off v s
  | memRead sp a => exact loadByte_params sp a s
  | memWrite sp a b => exact storeByte_params sp a b s

/-- What the engine leaves alone, whatever the coming events. -/
theorem engineStep_constants {s t : State} (ht : engineStep s = .next t) :
    t.params = s.params ∧ t.arg0 = s.arg0 ∧ t.arg1 = s.arg1 ∧ t.ie = s.ie := by
  obtain ⟨hparams, harg0, harg1, hie, -, -⟩ := engineStep_keeps ht
  exact ⟨hparams, harg0, harg1, hie⟩

/-- Settles O50: no event writes the parameters, and the engine's turn writes neither operand nor IE. -/
theorem constantsAndOperandsAreTheHosts : Obligations.ConstantsAndOperandsAreTheHosts := by
  intro s t ht
  obtain ⟨-, he⟩ | ⟨op, rest, hev, he⟩ | ⟨rest, -, he⟩ | ⟨rest, hev, he⟩ := step_cases s <;> rw [he] at ht
  · exact (engineStep_constants ht).imp_right fun h _ => h
  · cases ht
    exact ⟨hostAccess_params op _, by simp [hev]⟩
  · exact (engineStep_constants ht).imp_right fun h _ => h
  · cases ht
    exact ⟨rfl, by simp [hev]⟩

/-! ### The host's operations while a command runs -/

/-- Settles O38: of the writes an idle block accepts, a busy one takes those of CTRL, STATUS, ARG0 and ARG1. -/
theorem hostCannotReachTheRunningCommand : Obligations.HostCannotReachTheRunningCommand := by
  intro s op hbusy hnoReset
  have hnotIdle : s.busy ≠ false := by simp [hbusy]
  cases op with
  | regRead off => rfl
  | regWrite off v =>
    simp only [hostAccess]
    obtain he | ⟨-, he⟩ | ⟨hctrl, hv, -⟩ | ⟨-, -, he⟩ | ⟨-, he⟩ | ⟨-, hidle, -⟩ | ⟨-, hidle, -⟩ | ⟨-, he⟩ | ⟨-, he⟩ |
      ⟨-, hidle, -⟩ | ⟨-, hidle, -⟩ := writeRegister_cases off v s
    · rw [he]
    · rw [he]
      rfl
    · have hoff : off = 0x00 := eq_offset_of_regAt hctrl
      rw [hnoReset v (by rw [hoff])] at hv
      cases hv
    · rw [he]
    · rw [he]
      rfl
    · exact (hnotIdle hidle).elim
    · exact (hnotIdle hidle).elim
    · rw [he]
    · rw [he]
    · exact (hnotIdle hidle).elim
    · exact (hnotIdle hidle).elim
  | memRead sp a =>
    simp only [hostAccess]
    obtain ⟨-, he⟩ | ⟨-, he⟩ := loadByte_cases sp a s <;> rw [he] <;> rfl
  | memWrite sp a b =>
    simp only [hostAccess]
    obtain ⟨-, he⟩ | ⟨-, -, -, he⟩ | ⟨-, -, hidle, -⟩ := storeByte_cases sp a b s
    · rw [he]
    · rw [he]
      rfl
    · exact (hnotIdle hidle).elim

/-! ### The operands while a command runs -/

/-- `s` with other values in ARG0 and ARG1. -/
def withArgs (x y : Word) (s : State) : State := { s with arg0 := x, arg1 := y }

/-- A change of the next state of an outcome. -/
def mapNext (f : State → State) : Host.Outcome State Fault Refusal → Host.Outcome State Fault Refusal
  | .next t => .next (f t)
  | .fault r => .fault r
  | .refused r => .refused r

/-- No command reads or writes ARG0 or ARG1: its operands are CUR's (R112), so each of its checks decides as before. -/
theorem exec_withArgs (i : Instr) (x y : Word) (s : State) :
    exec i (withArgs x y s) = mapNext (withArgs x y) (exec i s) := by
  cases i with
  | nop => rfl
  | convert =>
    simp only [exec, execConvert, apply_ite (mapNext (withArgs x y))]
    rfl
  | classify =>
    simp only [exec, execClassify, apply_ite (mapNext (withArgs x y))]
    rfl
  | scan =>
    simp only [exec, execScan, apply_ite (mapNext (withArgs x y))]
    rfl
  | packb o =>
    simp only [exec, execPackb, packBytes, mapNext, apply_ite (withArgs x y)]
    rfl
  | packi o =>
    simp only [exec, execPacki, packInteger, mapNext, apply_ite (withArgs x y)]
    rfl

theorem completeCommand_withArgs (x y : Word) (s : State) :
    completeCommand (withArgs x y s) = mapNext (withArgs x y) (completeCommand s) := by
  have hcur : (withArgs x y s).cur = s.cur := rfl
  unfold completeCommand
  rw [hcur]
  cases decode s.cur.word with
  | error r => rfl
  | ok i => exact exec_withArgs i x y s

theorem engineStep_withArgs (x y : Word) (s : State) :
    engineStep (withArgs x y s) = mapNext (withArgs x y) (engineStep s) := by
  have hbusy : (withArgs x y s).busy = s.busy := rfl
  unfold engineStep
  rw [hbusy]
  cases s.busy with
  | false => rfl
  | true => exact completeCommand_withArgs x y s

/-- Settles O39: a write of one operand keeps the other, and so does the completion. -/
theorem operandWritesCommuteWithCompletion : Obligations.OperandWritesCommuteWithCompletion := by
  intro s t v _ ht
  obtain ⟨-, harg0, harg1, -⟩ := engineStep_constants ht
  have hcommute (x y : Word) : engineStep (withArgs x y s) = .next (withArgs x y t) := by
    rw [engineStep_withArgs, ht]
    rfl
  have hwrite0 : hostAccess (.regWrite 0x10 v) t = withArgs v s.arg1 t := harg1 ▸ rfl
  have hwrite1 : hostAccess (.regWrite 0x14 v) t = withArgs s.arg0 v t := harg0 ▸ rfl
  rw [hwrite0, hwrite1]
  exact ⟨hcommute v s.arg1, hcommute s.arg0 v⟩

end Sys2Proof.Proofs
end

section
/-! What a command writes (R91), the bytes CONVERT writes (R85, R140) and those it reads (R84, R141). -/

namespace Sys2Proof.Proofs

open Sys2Proof.Machine Sys2Proof.Laws

/-- Settles O8: an error or a success writes the completion's status fields, and a success its own targets. -/
theorem commandsWriteOnlyTheirTargets : Obligations.CommandsWriteOnlyTheirTargets := by
  intro i s t ht
  obtain ⟨e, -, he⟩ | ⟨-, he⟩ | ⟨rfl, -, he⟩ | ⟨rfl, he⟩ | ⟨rfl, -, -, he⟩ | ⟨o, rfl, -, he⟩ | ⟨o, rfl, he⟩ :=
    exec_cases i s <;> rw [he] at ht <;> cases ht
  · simp
  · simp
  · simp [converted]
  · simp [classified]
  · simp [scanned]
  · simp [packed]
  · simp [packedWord]

/-! ### The bytes CONVERT writes -/

/-- A byte of the matrix holds the channel converted for it. -/
theorem peek_converted_of_lt {s : State} {a : Nat} (ha : a < 3 * (frameW s * frameH s)) :
    peek (converted s) .pix a = convertedByte s a :=
  byteAt_fill_lt _ _ _ _ _ ha

/-- PIX past the matrix is as before. -/
theorem peek_converted_of_ge {s : State} {a : Nat} (ha : 3 * (frameW s * frameH s) ≤ a) :
    peek (converted s) .pix a = peek s .pix a :=
  byteAt_fill_ge _ _ _ _ _ ha

/-- Row-major order numbers the elements of an `H` by `W` array below `W * H`. -/
theorem rowMajor_lt {W H i j : Nat} (hi : i < H) (hj : j < W) : i * W + j < W * H :=
  calc i * W + j < (i + 1) * W := by rw [Nat.succ_mul]; omega
    _ ≤ H * W := Nat.mul_le_mul_right W hi
    _ = W * H := Nat.mul_comm H W

/-- The three bytes of pixel (i, j) stand in a row at three times its number (R85). -/
theorem convertedByte_pixel (s : State) (i : Nat) {j : Nat} (hj : j < frameW s) :
    convertedByte s (3 * (i * frameW s + j)) = (convertedPixel s i j).r ∧
    convertedByte s (3 * (i * frameW s + j) + 1) = (convertedPixel s i j).g ∧
    convertedByte s (3 * (i * frameW s + j) + 2) = (convertedPixel s i j).b := by
  have hrow : (i * frameW s + j) / frameW s = i := by
    rw [Nat.mul_comm, Nat.mul_add_div (by omega), Nat.div_eq_of_lt hj, Nat.add_zero]
  have hcol : (i * frameW s + j) % frameW s = j := Nat.mul_add_mod_of_lt hj
  have hpixel (n c : Nat) (hc : c < 3) : (3 * n + c) / 3 = n ∧ (3 * n + c) % 3 = c := by omega
  simp [convertedByte, hrow, hcol, hpixel]

theorem exec_convert_of_legalDims {s : State} (h : LegalDims s.params (frameW s) (frameH s)) :
    exec .convert s = .next (converted s) :=
  if_pos h

/-- Settles O10: every byte of the matrix is a channel of one pixel, and `fill` writes no other byte. -/
theorem convertWritesEveryPixel : Obligations.ConvertWritesEveryPixel := by
  intro s W H hW hH hWeven hHeven hcap hdepth
  refine ⟨converted s, exec_convert_of_legalDims ⟨hW, hH, hWeven, hHeven, hcap, hdepth⟩, fun i j hi hj => ?_,
    fun a ha => peek_converted_of_ge ha, rfl⟩
  have hplace : i * W + j < W * H := rowMajor_lt hi hj
  have hbyte (c : Nat) (hc : c < 3) : 3 * (i * W + j) + c < 3 * (W * H) := by omega
  obtain ⟨hred, hgreen, hblue⟩ := convertedByte_pixel s i hj
  exact ⟨(peek_converted_of_lt (hbyte 0 (by decide))).trans hred,
    (peek_converted_of_lt (hbyte 1 (by decide))).trans hgreen,
    (peek_converted_of_lt (hbyte 2 (by decide))).trans hblue⟩

/-! ### The bytes CONVERT reads -/

/-- The three samples of a pixel stand inside the frame: a luma plane and two chroma planes a quarter its size (R84). -/
theorem sampleAddrs_lt {W H i j : Nat} (hW : W % 2 = 0) (hH : H % 2 = 0) (hi : i < H) (hj : j < W) :
    lumaAddr W i j < 3 * (W * H) / 2 ∧ chromaUAddr W H i j < 3 * (W * H) / 2 ∧
      chromaVAddr W H i j < 3 * (W * H) / 2 := by
  have hluma : i * W + j < W * H := rowMajor_lt hi hj
  have hchroma : i / 2 * (W / 2) + j / 2 < W / 2 * (H / 2) := rowMajor_lt (by omega) (by omega)
  have hquarter : W * H = 4 * (W / 2 * (H / 2)) := by
    obtain ⟨w, rfl⟩ := Nat.dvd_of_mod_eq_zero hW
    obtain ⟨h, rfl⟩ := Nat.dvd_of_mod_eq_zero hH
    rw [Nat.mul_div_cancel_left w two_pos, Nat.mul_div_cancel_left h two_pos]
    ring
  unfold lumaAddr chromaUAddr chromaVAddr
  omega

/-- States that agree on the parameters, the dimensions and the frame convert to the same byte of the matrix. -/
theorem convertedByte_congr {s t : State} (hparams : s.params = t.params) (hwidth : s.width = t.width)
    (hheight : s.height = t.height) (hW : frameW s % 2 = 0) (hH : frameH s % 2 = 0)
    (hframe : ∀ a, a < 3 * (frameW s * frameH s) / 2 → peek s .frame a = peek t .frame a)
    {a : Nat} (ha : a < 3 * (frameW s * frameH s)) : convertedByte s a = convertedByte t a := by
  have hw : frameW t = frameW s := congrArg BitVec.toNat hwidth.symm
  have hh : frameH t = frameH s := congrArg BitVec.toNat hheight.symm
  have hnumber : a / 3 < frameW s * frameH s := by omega
  have hrow : a / 3 / frameW s < frameH s := Nat.div_lt_of_lt_mul hnumber
  have hcol : a / 3 % frameW s < frameW s := Nat.mod_lt _ (Nat.pos_of_lt_mul_right hnumber)
  obtain ⟨hy, hu, hv⟩ := sampleAddrs_lt hW hH hrow hcol
  simp only [convertedByte, convertedPixel, samples, hw, hh, hparams, hframe _ hy, hframe _ hu, hframe _ hv]

/-- Settles O14: the samples of every pixel of the matrix are bytes of the frame. -/
theorem convertReadsOnlyTheFrameBytes : Obligations.ConvertReadsOnlyTheFrameBytes := by
  intro s t hparams hwidth hheight hdims hframe
  have hdims' : LegalDims t.params t.width.toNat t.height.toNat := hparams ▸ hwidth ▸ hheight ▸ hdims
  refine ⟨_, _, exec_convert_of_legalDims hdims, exec_convert_of_legalDims hdims', fun a ha => ?_⟩
  have ha' : a < 3 * (t.width.toNat * t.height.toNat) := hwidth ▸ hheight ▸ ha
  obtain ⟨-, -, hW, hH, -, -⟩ := hdims
  rw [peek_converted_of_lt ha, peek_converted_of_lt ha']
  exact convertedByte_congr hparams hwidth hheight hW hH hframe ha

end Sys2Proof.Proofs
end

section
/-! What the host's reads and writes do and how often they may be repeated (R82, R83, R88 to R90, R225). -/

namespace Sys2Proof.Proofs

open Sys2Proof.Machine Sys2Proof.Laws Sys2Proof.Claims

/-! ### Reads -/

theorem busySpace_eq_some_iff {s : State} {sp : Space} :
    busySpace s = some sp ↔ s.busy = true ∧ writtenSpace s.cur.word = some sp := by
  simp [busySpace]

/-- Settles O41: an unspecified read is one past the end or of the space the latched word writes. -/
theorem hostReadReturnsTheByteOrADraw : Obligations.HostReadReturnsTheByteOrADraw := by
  intro s sp a unspecified
  have hiff : ReadIsUnspecified s sp a.toNat ↔ unspecified := by
    rw [ReadIsUnspecified, busySpace_eq_some_iff, writtenSpace_eq_some_iff]
  simp only [hostAccess]
  obtain ⟨hread, he⟩ | ⟨hread, he⟩ := loadByte_cases sp a s <;> rw [he]
  · exact ⟨fun _ => rfl, fun h => absurd (hiff.mpr h) hread⟩
  · exact ⟨fun h => absurd (hiff.mp hread) h, fun _ => rfl⟩

/-! ### The same write twice -/

theorem clearStatus_clearStatus (v : Word) (s : State) : clearStatus v (clearStatus v s) = clearStatus v s := by
  simp [clearStatus]

theorem writeCtrl_of_not_reset {v : Word} (hv : v.getLsbD 0 = false) (s : State) :
    writeCtrl v s = { s with ie := v.getLsbD 1 } := by
  rw [writeCtrl, hv]
  rfl

/-- A register write that neither issues a command nor resets has no further effect when repeated. -/
theorem writeReg_writeReg {r : Reg} {v : Word} (hcmd : r ≠ .cmd) (hreset : r = .ctrl → v.getLsbD 0 = false)
    (s : State) : writeReg r v (writeReg r v s) = writeReg r v s := by
  cases r with
  | ctrl => rw [writeReg, writeReg, writeCtrl_of_not_reset (hreset rfl), writeCtrl_of_not_reset (hreset rfl)]
  | status => exact clearStatus_clearStatus v s
  | width => cases hbusy : s.busy <;> simp [writeReg, writeWidth, loseWrite, hbusy]
  | height => cases hbusy : s.busy <;> simp [writeReg, writeHeight, loseWrite, hbusy]
  | symcount => cases hbusy : s.busy <;> simp [writeReg, writeSymcount, loseWrite, hbusy]
  | cmd => exact absurd rfl hcmd
  | arg0 | arg1 => rfl
  | result | bsum | outcount | gridw | gridh | cells | capacity | symdepth | framedepth | pixcap => rfl

theorem writeRegister_of_regAt_eq_none {off : Word} (h : regAt off = none) (v : Word) (s : State) :
    writeRegister off v s = s := by
  simp [writeRegister, h]

theorem putCell_putCell (l : List Host.Cell) (a : Nat) (b : Byte) :
    putCell (putCell l a b) a b = putCell l a b := by
  induction l with
  | nil => simp [putCell]
  | cons c rest ih =>
    obtain ⟨k, x⟩ := c
    by_cases hlt : a < k
    · simp [putCell, hlt]
    · by_cases heq : a = k
      · simp [putCell, heq]
      · simp [putCell, hlt, heq, ih]

theorem put_put (m : Mem) (sp : Space) (a : Nat) (b : Byte) : (m.put sp a b).put sp a b = m.put sp a b := by
  simp [Mem.put, putCell_putCell]

theorem setMem_setMem (s : State) (sp : Space) (m m' : Mem) : (s.setMem sp m).setMem sp m' = s.setMem sp m' := by
  cases sp <;> rfl

/-- A store inside a space the host may write, while a command runs (R89). -/
theorem storeByte_busy {s : State} {sp : Space} {a : Word} (hbusy : s.busy = true)
    (hwritable : hostWritable sp = true) (ha : a.toNat < s.params.extent sp) (b : Byte) :
    storeByte sp a b s = loseWrite s := by
  simp [storeByte, hbusy, hwritable, ha]

theorem storeByte_storeByte (sp : Space) (a : Word) (b : Byte) (s : State) :
    storeByte sp a b (storeByte sp a b s) = storeByte sp a b s := by
  obtain ⟨-, he⟩ | ⟨hwritable, ha, hbusy, he⟩ | ⟨hwritable, ha, hidle, he⟩ := storeByte_cases sp a b s
  · rw [he, he]
  · rw [he]
    exact storeByte_busy (s := loseWrite s) hbusy hwritable ha b
  · rw [he, storeByte_inside (by simpa using hidle) hwritable (by simpa using ha), mem_setMem, put_put, setMem_setMem]

/-- Settles O42: a write is ignored, lost, stored or taken by a register, and each of these repeats without effect. -/
theorem hostAccessesAreIdempotent : Obligations.HostAccessesAreIdempotent := by
  refine ⟨fun s op hnoRegWrite hnoMemWrite => ?_, fun s off v hcmd hreset => ?_,
    fun s sp a b => storeByte_storeByte sp a b s⟩
  · cases op with
    | regRead off => exact ⟨_, s.draws, rfl⟩
    | regWrite off v => exact absurd rfl (hnoRegWrite off v)
    | memRead sp a =>
      simp only [hostAccess]
      obtain ⟨-, he⟩ | ⟨-, he⟩ := loadByte_cases sp a s <;> rw [he]
      · exact ⟨_, s.draws, rfl⟩
      · exact ⟨_, s.draws + 1, rfl⟩
    | memWrite sp a b => exact absurd rfl (hnoMemWrite sp a b)
  · simp only [hostAccess]
    cases hreg : regAt off with
    | none => rw [writeRegister_of_regAt_eq_none hreg, writeRegister_of_regAt_eq_none hreg]
    | some r =>
      obtain rfl := eq_offset_of_regAt hreg
      rw [writeRegister_offset, writeRegister_offset]
      exact writeReg_writeReg (fun h => hcmd (congrArg Reg.offset h)) (fun h => hreset (congrArg Reg.offset h)) s

/-! ### Writes while a command runs -/

theorem writeWidth_busy {s : State} (hbusy : s.busy = true) (v : Word) : writeWidth v s = loseWrite s := by
  simp [writeWidth, hbusy]

theorem writeHeight_busy {s : State} (hbusy : s.busy = true) (v : Word) : writeHeight v s = loseWrite s := by
  simp [writeHeight, hbusy]

theorem writeSymcount_busy {s : State} (hbusy : s.busy = true) (v : Word) : writeSymcount v s = loseWrite s := by
  simp [writeSymcount, hbusy]

theorem writeCmd_busy {s : State} (hbusy : s.busy = true) (v : Word) : writeCmd v s = loseWrite s := by
  simp [writeCmd, hbusy]

/-- Bits 1, 2 and 3 of a STATUS write clear DONE, ERR and LOST (R224). -/
theorem clearStatus_eq_ite (v : Word) (s : State) : clearStatus v s = { s with
    done := if v.getLsbD 1 then false else s.done
    err := if v.getLsbD 2 then false else s.err
    lost := if v.getLsbD 3 then false else s.lost } := by
  have hclear (x c : Bool) : (x && !c) = if c then false else x := by cases x <;> cases c <;> rfl
  simp only [clearStatus, hclear]

/-- The reset values of the registers give the derived registers and `irq` theirs (R33, R45, R46). -/
theorem registersReset_resetRegisters (s : State) : RegistersReset (resetRegisters s) := by
  have hgridW : gridW (resetRegisters s) = 0 := by simp [gridW, frameW]
  have hgridH : gridH (resetRegisters s) = 0 := by simp [gridH, frameH]
  have hcells : cellCount (resetRegisters s) = 0 := by simp [cellCount, hgridW]
  have hcapacity : capacityBytes (resetRegisters s) = -16 := by simp [capacityBytes, hcells]
  exact ⟨rfl, rfl, rfl, rfl, rfl, rfl, rfl, rfl, rfl, rfl, rfl, rfl, rfl, rfl, rfl,
    congrArg u32 hgridW, congrArg u32 hgridH, congrArg u32 hcells, congrArg (BitVec.ofInt 32) hcapacity, rfl⟩

theorem registersReset_softReset (s : State) : RegistersReset (softReset s) := by
  obtain ⟨-, he⟩ | ⟨sp, -, he⟩ := softReset_cases s <;> rw [he] <;> exact registersReset_resetRegisters _

theorem ctrlWord_of_registersReset {t : State} (h : RegistersReset t) : ctrlWord t = 0 := by
  obtain ⟨hie, -⟩ := h
  simp [ctrlWord, hie]

/-- Settles O37: `writeRegister` and `storeByte` while BUSY = 1, and `writeCtrl` in every state. -/
theorem busyWritesAreLost : Obligations.BusyWritesAreLost := by
  refine ⟨fun s v => ⟨fun hv => ?_, fun hv => ?_⟩, fun s hbusy => ⟨fun v => ?_, fun off v hoff => ?_, fun a b => ?_⟩⟩
  · exact writeCtrl_of_not_reset hv s
  · have he : hostAccess (.regWrite 0x00 v) s = softReset s := if_pos hv
    rw [he]
    exact ⟨registersReset_softReset s, ctrlWord_of_registersReset (registersReset_softReset s)⟩
  · exact ⟨writeWidth_busy hbusy v, writeHeight_busy hbusy v, writeSymcount_busy hbusy v, writeCmd_busy hbusy v,
      clearStatus_eq_ite v s, rfl, rfl⟩
  · obtain hunaligned | hpast | hreadOnly := hoff
    · exact writeRegister_of_regAt_eq_none (regAt_eq_none (.inl hunaligned)) v s
    · exact writeRegister_of_regAt_eq_none (regAt_eq_none (.inr hpast)) v s
    · exact writeRegister_readOnly hreadOnly v s
  · exact ⟨fun ha => storeByte_busy (sp := .frame) hbusy rfl ha b, fun ha => storeByte_busy (sp := .sym) hbusy rfl ha b,
      fun ha => storeByte_pastEnd (sp := .frame) ha b, fun ha => storeByte_pastEnd (sp := .sym) ha b,
      storeByte_readOnly rfl a b s, storeByte_readOnly rfl a b s⟩

end Sys2Proof.Proofs
end

section
/-! Decoding and encoding (R111, R113, R116), and a pseudo-instruction as the run of its host events (R95, R117, R118). -/

namespace Sys2Proof.Proofs

open Sys2Proof.Machine Sys2Proof.Laws Sys2Proof.Claims

/-! ### The decoder, both ways -/

/-- The fields that make up a word stand in it (R111): with `wordOf_fieldsOf`, words and fields correspond one to one. -/
theorem fieldsOf_wordOf (f : FormatC) : fieldsOf (wordOf f) = f := by
  obtain ⟨op, o, rsv⟩ := f
  have hop : (wordOf ⟨op, o, rsv⟩).extractLsb' 0 8 = op := by
    simp only [wordOf, BitVec.extractLsb'_append_eq_right]
  have ho : (wordOf ⟨op, o, rsv⟩).getLsbD 8 = o := by
    simp only [wordOf, BitVec.getLsbD_append]
    simp
  have hrsv : (wordOf ⟨op, o, rsv⟩).extractLsb' 9 23 = rsv := by
    apply BitVec.eq_of_toNat_eq
    simp only [wordOf, toNat_append_eq_add, BitVec.toNat_ofBool, BitVec.extractLsb'_toNat, Nat.shiftRight_eq_div_pow]
    have := op.isLt
    have := o.toNat_lt
    have := rsv.isLt
    omega
  rw [fieldsOf, hop, ho, hrsv]

theorem decodeFields_fields (i : Instr) : decodeFields i.fields = .ok i := by
  cases i with
  | nop | convert | classify | scan => rfl
  | packb o | packi o => cases o <;> rfl

theorem decode_eq_ok_iff (w : Word) (i : Instr) : decode w = .ok i ↔ w = encode i := by
  refine ⟨eq_encode_of_decode, ?_⟩
  rintro rfl
  rw [decode, encode, fieldsOf_wordOf, decodeFields_fields]

/-- Settles O2: words and fields correspond one to one, and so do commands and the fields that decode. -/
theorem decodeOkIffEncoded : Obligations.DecodeOkIffEncoded := decode_eq_ok_iff

/-- Settles O1: the eight words are the commands' own. -/
theorem fullCommandWordsDecode : Obligations.FullCommandWordsDecode := by
  unfold Obligations.FullCommandWordsDecode
  simp only [decode_eq_ok_iff]
  decide

/-! ### The block and its queues -/

/-- `s` with other coming events and other replies. -/
def withQueues (es : List Event) (rs : List Reply) (s : State) : State := { s with events := es, replies := rs }

/-- Two states of one block differ in their queues alone. -/
theorem eq_withQueues_of_blockOf_eq {s t : State} (h : blockOf s = blockOf t) :
    s = withQueues s.events s.replies t :=
  calc s = withQueues s.events s.replies (blockOf s) := rfl
    _ = withQueues s.events s.replies (blockOf t) := by rw [h]

theorem softReset_withQueues (es : List Event) (rs : List Reply) (s : State) :
    softReset (withQueues es rs s) = withQueues es rs (softReset s) := by
  have hspace : busySpace (withQueues es rs s) = busySpace s := rfl
  unfold softReset
  rw [hspace]
  cases busySpace s with
  | none => rfl
  | some sp => cases sp <;> rfl

theorem writeRegister_withQueues (off v : Word) (es : List Event) (rs : List Reply) (s : State) :
    writeRegister off v (withQueues es rs s) = withQueues es rs (writeRegister off v s) := by
  unfold writeRegister
  cases regAt off with
  | none => rfl
  | some r =>
    cases r with
    | ctrl =>
      simp only [writeReg, writeCtrl, softReset_withQueues, apply_ite (withQueues es rs)]
      rfl
    | width | height | cmd | symcount =>
      simp only [writeReg, writeWidth, writeHeight, writeCmd, writeSymcount, apply_ite (withQueues es rs)]
      rfl
    | _ => rfl

theorem storeByte_withQueues (sp : Space) (a : Word) (b : Byte) (es : List Event) (rs : List Reply) (s : State) :
    storeByte sp a b (withQueues es rs s) = withQueues es rs (storeByte sp a b s) := by
  simp only [storeByte, apply_ite (withQueues es rs)]
  cases sp <;> rfl

theorem loadByte_withQueues (sp : Space) (a : Word) (es : List Event) (rs : List Reply) (s : State) :
    (loadByte sp a (withQueues es rs s)).2 = withQueues es rs (loadByte sp a s).2 := by
  simp only [loadByte, apply_ite Prod.snd, apply_ite (withQueues es rs)]
  rfl

/-- No command reads or writes the queues. -/
theorem exec_withQueues (i : Instr) (es : List Event) (rs : List Reply) (s : State) :
    exec i (withQueues es rs s) = mapNext (withQueues es rs) (exec i s) := by
  cases i with
  | nop => rfl
  | convert | classify | scan =>
    simp only [exec, execConvert, execClassify, execScan, apply_ite (mapNext (withQueues es rs))]
    rfl
  | packb o | packi o =>
    simp only [exec, execPackb, execPacki, packBytes, packInteger, mapNext, apply_ite (withQueues es rs)]
    rfl

theorem engineStep_withQueues (es : List Event) (rs : List Reply) (s : State) :
    engineStep (withQueues es rs s) = mapNext (withQueues es rs) (engineStep s) := by
  have hbusy : (withQueues es rs s).busy = s.busy := rfl
  have hcur : (withQueues es rs s).cur = s.cur := rfl
  unfold engineStep completeCommand
  rw [hbusy, hcur]
  cases s.busy with
  | false => rfl
  | true =>
    cases decode s.cur.word with
    | error r => rfl
    | ok i => exact exec_withQueues i es rs s

theorem engineStep_eq_afterEngine (s : State) : engineStep s = .next (afterEngine s) := by
  obtain ⟨t, ht⟩ := engineStep_next s
  simp only [afterEngine, ht]

theorem afterEngine_withQueues (es : List Event) (rs : List Reply) (s : State) :
    afterEngine (withQueues es rs s) = withQueues es rs (afterEngine s) := by
  have h := engineStep_withQueues es rs s
  rw [engineStep_eq_afterEngine, engineStep_eq_afterEngine] at h
  exact Host.Outcome.next.inj h

/-! ### Events as functions of the state -/

/-- The state an event leads to (`applyEvent_eq_afterEvent`). -/
def afterEvent (s : State) : Event → State
  | .host op => hostAccess op s
  | .engine => afterEngine s
  | .powerOn => powerOnReset s

theorem applyEvent_eq_afterEvent (e : Event) (s : State) : applyEvent e s = .next (afterEvent s e) := by
  cases e with
  | host op => rfl
  | engine => exact engineStep_eq_afterEngine s
  | powerOn => rfl

/-- An event neither reads the queues nor changes any of them but the replies. -/
theorem afterEvent_withQueues (e : Event) (es : List Event) (rs : List Reply) (s : State) :
    ∃ rs', afterEvent (withQueues es rs s) e = withQueues es rs' (afterEvent s e) := by
  cases e with
  | host op =>
    cases op with
    | regRead off => exact ⟨_, rfl⟩
    | regWrite off v => exact ⟨rs, writeRegister_withQueues off v es rs s⟩
    | memRead sp a => exact ⟨_, congrArg (pushReply _) (loadByte_withQueues sp a es rs s)⟩
    | memWrite sp a b => exact ⟨rs, storeByte_withQueues sp a b es rs s⟩
  | engine => exact ⟨rs, afterEngine_withQueues es rs s⟩
  | powerOn => exact ⟨rs, rfl⟩

theorem events_afterEvent (e : Event) (s : State) : (afterEvent s e).events = s.events := by
  obtain ⟨rs, h⟩ := afterEvent_withQueues e s.events s.replies s
  exact (congrArg State.events h :)

theorem blockOf_afterEvent {s t : State} (h : blockOf s = blockOf t) (e : Event) :
    blockOf (afterEvent s e) = blockOf (afterEvent t e) := by
  rw [eq_withQueues_of_blockOf_eq h]
  obtain ⟨rs, he⟩ := afterEvent_withQueues e s.events s.replies t
  rw [he]
  rfl

/-- The machine runs through the events at the head of its queue, each by its function. -/
theorem run_events {es rest : List Event} {s u : State} (hev : s.events = es ++ rest) (hu : blockOf s = blockOf u) :
    ∃ t, Sys2Proof.core.run es.length s = .next t ∧ t.events = rest ∧ blockOf t = blockOf (es.foldl afterEvent u) := by
  induction es generalizing s u with
  | nil => exact ⟨s, rfl, hev, hu⟩
  | cons e es ih =>
    have hstep : step s = .next (afterEvent { s with events := es ++ rest } e) := by
      rw [← applyEvent_eq_afterEvent]
      simp only [step, stepEvents, hev, List.cons_append]
    rw [List.length_cons, run_succ hstep, List.foldl_cons]
    exact ih (events_afterEvent e _) (blockOf_afterEvent (s := { s with events := es ++ rest }) hu e)

/-! ### Pseudo-instructions -/

/-- The polls of a `wait` before the completion change no state of the block (R88). -/
theorem blockOf_foldl_statusPolls (polls : Nat) (s : State) :
    blockOf ((List.replicate polls (.host (.regRead Reg.status.offset))).foldl afterEvent s) = blockOf s := by
  induction polls generalizing s with
  | zero => rfl
  | succ polls ih => exact ih _

theorem blockOf_foldl_stmtEvents (polls : Nat) (st : AsmStmt) {s t : State} (h : blockOf s = blockOf t) :
    blockOf ((st.events polls).foldl afterEvent s) = blockOf (runStmt t st) := by
  cases st with
  | wait =>
    rw [AsmStmt.events, List.foldl_append]
    have hpolled := (blockOf_foldl_statusPolls polls s).trans h
    exact blockOf_afterEvent (blockOf_afterEvent hpolled .engine) (.host (.regRead Reg.status.offset))
  | wr r v => exact blockOf_afterEvent h (.host (.regWrite r.offset v))
  | rd r => exact blockOf_afterEvent h (.host (.regRead r.offset))
  | wrm sp a b => exact blockOf_afterEvent h (.host (.memWrite sp a b))
  | rdm sp a => exact blockOf_afterEvent h (.host (.memRead sp a))
  | cmd i => exact blockOf_afterEvent h (.host (.regWrite Reg.cmd.offset (encode i)))

theorem blockOf_foldl_pseudoEvents (polls : Nat) (p : Pseudo) (s : State) :
    blockOf ((p.events polls).foldl afterEvent s) = blockOf (runPseudo p s) := by
  rw [Pseudo.events, List.foldl_flatMap, runPseudo]
  exact List.foldl_rel (r := fun s t => blockOf s = blockOf t) rfl fun st _ _ _ h => blockOf_foldl_stmtEvents polls st h

/-- Settles O53: the run of the events, and the statements' meanings, by functions of the block alone. -/
theorem pseudoInstructionsAreTheirEvents : Obligations.PseudoInstructionsAreTheirEvents := by
  intro p polls rest s hev
  obtain ⟨t, hrun, hrest, hblock⟩ := run_events hev rfl
  exact ⟨t, hrun, hrest, hblock.trans (blockOf_foldl_pseudoEvents polls p s)⟩

end Sys2Proof.Proofs
end

section
/-! CONVERT's channel functions: the truncated rational formulas and the parameter CSC_G_BINARY64 (R142 to R145). -/

namespace Sys2Proof.Proofs

open Sys2Proof.Machine Sys2Proof.Claims

/-- R145: a channel is the clamped value itself, which needs no more than eight bits. -/
@[simp] theorem clampByte_toNat (x : ℤ) : ((clampByte x).toNat : ℤ) = min 255 (max 0 x) := by
  rw [clampByte, BitVec.toNat_ofNat]
  omega

/-- R142: flooring and truncation toward zero differ only on negative values, which the clamp sends to 0. -/
theorem truncClamp_eq_clamp_floor (x : ℚ) : truncClamp x = min 255 (max 0 ⌊x⌋) := by
  rw [truncClamp, truncQ]
  split
  case isTrue => rfl
  case isFalse hx =>
    have hneg : x ≤ 0 := (not_le.mp hx).le
    rw [max_eq_left (Int.ceil_nonpos.mpr hneg), max_eq_left (Int.floor_nonpos hneg)]

/-- The integer form of a channel, for any formula `q` that is the fraction it divides out. -/
theorem clampByte_ediv_toNat (n : ℤ) (d : ℕ) {q : ℚ} (hq : (n : ℚ) / d = q) :
    ((clampByte (n / d)).toNat : ℤ) = truncClamp q := by
  rw [clampByte_toNat, truncClamp_eq_clamp_floor, ← hq, Rat.floor_intCast_div_natCast]

/-- With CSC_G_BINARY64 false, green is the one of exact arithmetic (R143). -/
@[simp] theorem cscG_false (y u v : Byte) : cscG false y u v = cscGExact y u v := by
  simp [cscG]

/-- Settles O12: over the common denominator each formula is the fraction whose floor the channel clamps. -/
theorem channelsAreTheTruncatedFormulas : Obligations.ChannelsAreTheTruncatedFormulas := by
  intro y u v yq uq vq
  rw [cscG_false]
  refine ⟨clampByte_ediv_toNat _ 400 ?red, clampByte_ediv_toNat _ 10000 ?green, clampByte_ediv_toNat _ 1000 ?blue⟩
  all_goals
    push_cast
    ring

/-- R143: at (U, V) = (30, 238) the exact correction is the integer −45. -/
theorem cscGExact_toNat_at_quirk {y u v : Byte} (hu : u.toNat = 30) (hv : v.toNat = 238) :
    (cscGExact y u v).toNat = y.toNat - 45 := by
  have hy := y.isLt
  rw [← Int.natCast_inj, cscGExact, clampByte_toNat, hu, hv]
  omega

/-- Settles O13: the parameter subtracts one inside the range, where green is at least 50, and nothing outside. -/
theorem binary64GreenDiffersAtSeventyNineInputs : Obligations.Binary64GreenDiffersAtSeventyNineInputs := by
  intro y u v
  rw [cscG_false]
  constructor
  · intro hquirk
    have ⟨hu, hv, hlow, _⟩ := hquirk
    have hexact := cscGExact_toNat_at_quirk (y := y) hu hv
    have hle : (1 : Byte) ≤ cscGExact y u v := by
      rw [BitVec.le_def, hexact]
      change 1 ≤ _
      omega
    rw [cscG, if_pos ⟨rfl, hquirk⟩, BitVec.toNat_sub_of_le hle, hexact]
    exact ⟨rfl, rfl⟩
  · intro hquirk
    rw [cscG, if_neg fun h => hquirk h.2]

end Sys2Proof.Proofs
end

section
/-! The classifier: scores and trimmed sums (R161 to R163, R167), the selection (R164) and CLASSIFY (R160, R166). -/

namespace Sys2Proof.Proofs

open Sys2Proof.Machine Sys2Proof.Laws Sys2Proof.Claims

/-! ### Scores -/

theorem channelDiff_sq_le (x y : Byte) :
    ((x.toNat : ℤ) - (y.toNat : ℤ)) * ((x.toNat : ℤ) - (y.toNat : ℤ)) ≤ 65025 := by
  have hx := x.isLt
  have hy := y.isLt
  have habs : |(x.toNat : ℤ) - (y.toNat : ℤ)| ≤ 255 := abs_le.mpr ⟨by omega, by omega⟩
  rw [← abs_mul_abs_self]
  exact mul_le_mul habs habs (abs_nonneg _) (by decide)

theorem sqDist_le (p q : RGB) : sqDist p q ≤ 195075 := by
  have hred := channelDiff_sq_le p.r q.r
  have hgreen := channelDiff_sq_le p.g q.g
  have hblue := channelDiff_sq_le p.b q.b
  exact Int.toNat_le.mpr (add_le_add (add_le_add hred hgreen) hblue)

theorem score_le (p q : RGB) : score p q ≤ 441 := by
  have hdist : sqDist p q < 442 * 442 := (sqDist_le p q).trans_lt (by decide)
  rw [score, isqrt_eq_sqrt]
  exact Nat.le_of_lt_succ (Nat.sqrt_lt.mpr hdist)

@[simp] theorem score_self (p : RGB) : score p p = 0 := by
  have hdist : sqDist p p = 0 := by simp [sqDist]
  rw [score, hdist, isqrt_eq_sqrt, Nat.sqrt_zero]

/-- R167: no two reference colours score less than black and purple do. -/
theorem le_score_refc : ∀ {j k : Sym}, j ≠ k → 181 ≤ score (refc k) (refc j) := by
  decide

/-! ### Trimmed sums -/

/-- The scores of a window against `q` in ascending order (R163). -/
def sortedScores (px : List RGB) (q : RGB) : List Nat := (px.map fun p => score p q).insertionSort (· ≤ ·)

theorem trimmedSum_eq (px : List RGB) (q : RGB) : trimmedSum px q = ((sortedScores px q).take keptScores).sum := rfl

theorem sortedScores_perm (px : List RGB) (q : RGB) : (sortedScores px q).Perm (px.map fun p => score p q) :=
  List.perm_insertionSort _ _

theorem pairwise_sortedScores (px : List RGB) (q : RGB) : (sortedScores px q).Pairwise (· ≤ ·) :=
  List.pairwise_insertionSort _ _

@[simp] theorem length_sortedScores (px : List RGB) (q : RGB) : (sortedScores px q).length = px.length := by
  rw [(sortedScores_perm px q).length_eq, List.length_map]

theorem countP_sortedScores (f : Nat → Bool) (px : List RGB) (q : RGB) :
    (sortedScores px q).countP f = px.countP fun p => f (score p q) := by
  rw [(sortedScores_perm px q).countP_eq, List.countP_map]
  rfl

theorem le_of_mem_sortedScores {px : List RGB} {q : RGB} {x : Nat} (hx : x ∈ sortedScores px q) : x ≤ 441 := by
  obtain ⟨p, -, rfl⟩ := List.mem_map.mp ((sortedScores_perm px q).mem_iff.mp hx)
  exact score_le p q

theorem sum_take_le {l : List Nat} {b : Nat} (hle : ∀ x ∈ l, x ≤ b) (n : Nat) : (l.take n).sum ≤ min n l.length * b := by
  rw [← List.length_take, ← smul_eq_mul]
  exact List.sum_le_card_nsmul _ _ fun x hx => hle x (List.mem_of_mem_take hx)

theorem trimmedSum_le (px : List RGB) (q : RGB) : trimmedSum px q ≤ 6174 :=
  calc trimmedSum px q ≤ min keptScores (sortedScores px q).length * 441 :=
        sum_take_le (fun _ => le_of_mem_sortedScores) keptScores
    _ ≤ keptScores * 441 := Nat.mul_le_mul_right 441 (min_le_left _ _)

theorem sortedScores_congr {px qx : List RGB} (h : px.Perm qx) (q : RGB) : sortedScores px q = sortedScores qx q :=
  List.Perm.eq_of_pairwise' (pairwise_sortedScores px q) (pairwise_sortedScores qx q)
    ((sortedScores_perm px q).trans ((h.map _).trans (sortedScores_perm qx q).symm))

/-- The zeros of an ascending list stand first: what is cut off its end is positive as long as anything positive stays. -/
theorem sum_take_le_of_pairwise {b : Nat} : ∀ {l : List Nat} (n : Nat), l.Pairwise (· ≤ ·) → (∀ x ∈ l, x ≤ b) →
    (l.take n).sum ≤ (l.countP (0 < ·) - (l.length - n)) * b
  | [], n, _, _ => by simp
  | _ :: _, 0, _, _ => by simp
  | 0 :: l, n + 1, hsorted, hle => by
    have ih := sum_take_le_of_pairwise n hsorted.of_cons fun x hx => hle x (List.mem_cons_of_mem 0 hx)
    simpa using ih
  | (a + 1) :: l, n + 1, hsorted, hle => by
    have hpos : ((a + 1) :: l).countP (0 < ·) = ((a + 1) :: l).length := by
      refine List.countP_eq_length.mpr fun x hx => decide_eq_true ?_
      obtain rfl | hx := List.mem_cons.mp hx
      · exact a.succ_pos
      · exact a.succ_pos.trans_le (List.rel_of_pairwise_cons hsorted hx)
    have hkept : min (n + 1) ((a + 1) :: l).length = ((a + 1) :: l).length - (((a + 1) :: l).length - (n + 1)) := by
      omega
    rw [hpos, ← hkept]
    exact sum_take_le hle (n + 1)

/-- Every element taken that is not among the small ones adds at least `b`. -/
theorem mul_le_sum_take (b : Nat) : ∀ {l : List Nat} {n : Nat}, n ≤ l.length →
    (n - l.countP (· < b)) * b ≤ (l.take n).sum
  | _, 0, _ => by simp
  | x :: l, n + 1, hn => by
    have ih : (n - l.countP (· < b)) * b ≤ (l.take n).sum := mul_le_sum_take b (Nat.le_of_succ_le_succ hn)
    rw [List.take_succ_cons, List.sum_cons]
    by_cases hx : x < b
    · rw [List.countP_cons_of_pos (p := (· < b)) (decide_eq_true hx), Nat.add_sub_add_right]
      exact ih.trans (Nat.le_add_left _ x)
    · rw [List.countP_cons_of_neg (p := (· < b)) (mt of_decide_eq_true hx)]
      calc (n + 1 - l.countP (· < b)) * b ≤ (n - l.countP (· < b) + 1) * b := Nat.mul_le_mul_right b (by omega)
        _ = b + (n - l.countP (· < b)) * b := by rw [Nat.succ_mul, Nat.add_comm]
        _ ≤ x + (l.take n).sum := Nat.add_le_add (Nat.le_of_not_lt hx) ih

/-- R167: a pixel of the colour itself scores 0, and two scores are dropped. -/
theorem trimmedSum_le_corrupted {px : List RGB} (hpx : px.length = 16) (k : Sym) :
    trimmedSum px (refc k) ≤ (corrupted px k - 2) * 441 := by
  have hpos : (sortedScores px (refc k)).countP (0 < ·) ≤ corrupted px k := by
    rw [countP_sortedScores]
    refine List.countP_mono_left fun p _ hp => decide_eq_true ?_
    rintro rfl
    simp at hp
  calc trimmedSum px (refc k) ≤ ((sortedScores px (refc k)).countP (0 < ·) - (px.length - keptScores)) * 441 := by
        rw [← length_sortedScores px (refc k)]
        exact sum_take_le_of_pairwise keptScores (pairwise_sortedScores _ _) fun _ => le_of_mem_sortedScores
    _ ≤ (corrupted px k - 2) * 441 := by
        rw [hpx]
        exact Nat.mul_le_mul_right 441 (Nat.sub_le_sub_right hpos 2)

/-- R167: a pixel of another reference colour scores at least 181. -/
theorem le_trimmedSum_corrupted {px : List RGB} (hpx : px.length = 16) {j k : Sym} (hjk : j ≠ k) :
    (14 - corrupted px k) * 181 ≤ trimmedSum px (refc j) := by
  have hsmall : (sortedScores px (refc j)).countP (· < 181) ≤ corrupted px k := by
    rw [countP_sortedScores]
    refine List.countP_mono_left fun p _ hp => decide_eq_true ?_
    rintro rfl
    exact (le_score_refc hjk).not_gt (of_decide_eq_true hp)
  calc (14 - corrupted px k) * 181 ≤ (keptScores - (sortedScores px (refc j)).countP (· < 181)) * 181 :=
        Nat.mul_le_mul_right 181 (Nat.sub_le_sub_left hsmall 14)
    _ ≤ trimmedSum px (refc j) := mul_le_sum_take 181 (by rw [length_sortedScores, hpx]; decide)

/-! ### The selection -/

theorem mem_symbols : ∀ k : Sym, k ∈ [(0 : Sym), 1, 2, 3] := by
  decide

@[simp] theorem trimmedSums_at (px : List RGB) (k : Sym) : (trimmedSums px).at k = trimmedSum px (refc k) := by
  have hk := mem_symbols k
  fin_cases hk <;> rfl

/-- The loop of R164 over ascending symbols keeps the first minimum of those it has seen. -/
theorem foldl_firstMin (f : Sym → Nat) {ks : List Sym} {best : Sym}
    (hsorted : (best :: ks).Pairwise fun x y => x.toNat < y.toNat) {k : Sym} (hk : k ∈ best :: ks) :
    let chosen := ks.foldl (fun best k => if f k < f best then k else best) best
    f chosen ≤ f k ∧ (k.toNat < chosen.toNat → f chosen < f k) := by
  induction ks generalizing best k with
  | nil =>
    obtain rfl := List.mem_singleton.mp hk
    exact ⟨le_rfl, fun h => absurd h (lt_irrefl _)⟩
  | cons x ks ih =>
    have hlt : best.toNat < x.toNat := List.rel_of_pairwise_cons hsorted List.mem_cons_self
    rw [List.foldl_cons]
    by_cases hx : f x < f best
    · rw [if_pos hx]
      obtain rfl | hk := List.mem_cons.mp hk
      · have hchosen := (ih hsorted.of_cons List.mem_cons_self).1.trans_lt hx
        exact ⟨hchosen.le, fun _ => hchosen⟩
      · exact ih hsorted.of_cons hk
    · rw [if_neg hx]
      have hrest : (best :: ks).Pairwise fun x y => x.toNat < y.toNat :=
        hsorted.sublist ((List.sublist_cons_self x ks).cons_cons best)
      obtain rfl | hk := List.mem_cons.mp hk
      · exact ih hrest List.mem_cons_self
      obtain rfl | hk := List.mem_cons.mp hk
      · obtain ⟨hle, hstrict⟩ := ih hrest List.mem_cons_self
        exact ⟨hle.trans (not_lt.mp hx), fun h => (hstrict (hlt.trans h)).trans_le (not_lt.mp hx)⟩
      · exact ih hrest (List.mem_cons_of_mem best hk)

theorem selectSymbol_firstMin (t : Sums) (k : Sym) :
    t.at (selectSymbol t) ≤ t.at k ∧ (k.toNat < (selectSymbol t).toNat → t.at (selectSymbol t) < t.at k) :=
  foldl_firstMin t.at (by decide) (mem_symbols k)

/-! ### The unit function -/

/-- Settles O18: three channels at most 255 apart, and at most fourteen scores of at most 441. -/
theorem scoresAndSumsAreBounded : Obligations.ScoresAndSumsAreBounded := by
  refine ⟨fun p q => ⟨sqDist_le p q, score_le p q⟩, fun px k => ?_⟩
  rw [classify, trimmedSums_at]
  exact trimmedSum_le px (refc k)

/-- Settles O19: the selection loop finds the first minimum of the trimmed sums. -/
theorem selectedSymbolIsTheFirstMinimum : Obligations.SelectedSymbolIsTheFirstMinimum := by
  intro px k
  rw [← trimmedSums_at]
  exact selectSymbol_firstMin (trimmedSums px) k

/-- Settles O20: a permuted window has the same sorted scores. -/
theorem classifyIgnoresPixelOrder : Obligations.ClassifyIgnoresPixelOrder := by
  intro px qx h
  simp only [classify, trimmedSums, trimmedSum_eq, sortedScores_congr h]

/-- Settles O21: up to five corrupted pixels leave the trimmed sum of `k` below that of every other symbol. -/
theorem fiveCorruptedPixelsKeepTheSymbol : Obligations.FiveCorruptedPixelsKeepTheSymbol := by
  intro px k hpx
  have hupper := trimmedSum_le_corrupted hpx k
  refine ⟨hupper, fun j hj => le_trimmedSum_corrupted hpx hj, fun hfew => ?_, fun hfew => by omega⟩
  by_contra hother
  have hlower := le_trimmedSum_corrupted hpx hother
  have hmin := (selectedSymbolIsTheFirstMinimum px k).1
  rw [classify, trimmedSums_at] at hmin
  rw [classify] at hlower
  omega

/-! ### CLASSIFY -/

/-- The window row by row (R161). -/
theorem window_eq_flatMap (s : State) (r c : Nat) :
    window s r c = (List.range 4).flatMap fun a => (List.range 4).map fun b => pixelAt s (r + a) (c + b) := rfl

/-- Settles O15: with a frame and the window inside it no check of `execClassify_cases` fails. -/
theorem classifyWritesTheWindowsSymbol : Obligations.ClassifyWritesTheWindowsSymbol := by
  intro s hpv hrow hcol
  rw [← window_eq_flatMap]
  obtain ⟨-, -, -, he⟩ | ⟨hnoFrame, -⟩ | ⟨-, houtside, -⟩ := execClassify_cases s
  · exact he
  · cases hpv.symm.trans hnoFrame
  · exact absurd houtside (not_or.mpr ⟨hrow.not_gt, hcol.not_gt⟩)

/-- Settles O16: the two failing checks of `execClassify_cases`. -/
theorem classifyErrorsInOrder : Obligations.ClassifyErrorsInOrder := by
  refine ⟨rfl, rfl, fun s => ⟨fun hnoFrame => ?_, fun hpv houtside => ?_⟩⟩
  · obtain ⟨hpv, -⟩ | ⟨-, he⟩ | ⟨hpv, -⟩ := execClassify_cases s
    · cases hpv.symm.trans hnoFrame
    · exact he
    · cases hpv.symm.trans hnoFrame
  · obtain ⟨-, hrow, hcol, -⟩ | ⟨hnoFrame, -⟩ | ⟨-, -, he⟩ := execClassify_cases s
    · exact absurd houtside (not_or.mpr ⟨hrow.not_gt, hcol.not_gt⟩)
    · cases hpv.symm.trans hnoFrame
    · exact he

end Sys2Proof.Proofs
end

section
/-! SCAN: what it writes (R180 to R182, R185), its errors in order (R183, R184) and the grid of whole cells (R45, R181, R186). -/

namespace Sys2Proof.Proofs

open Sys2Proof.Machine Sys2Proof.Laws Sys2Proof.Claims

/-! ### The grid -/

/-- Row-major order numbers the cells of a `K` by `G` grid below `G * K`; a grid of no width has none. -/
theorem lt_mul_iff_div_lt_and_mod_lt {n G K : Nat} : n < G * K ↔ n / G < K ∧ n % G < G := by
  obtain rfl | hG := Nat.eq_zero_or_pos G
  · simp
  · rw [Nat.div_lt_iff_lt_mul hG, Nat.mul_comm K, and_iff_left (Nat.mod_lt n hG)]

/-- A whole cell fits at `4 * n` exactly when `n` is below the number of whole cells. -/
theorem cell_fits_iff {n d : Nat} : 4 * n + 4 ≤ d ↔ n < d / 4 := by
  omega

/-- Settles O24: row and column are below GRIDH and GRIDW exactly when the index is below their product. -/
theorem cellWindowInsideIffIndexBelowCells : Obligations.CellWindowInsideIffIndexBelowCells := by
  intro s idx
  rw [cell_fits_iff, cell_fits_iff]
  exact lt_mul_iff_div_lt_and_mod_lt

/-- R186: a frame narrower than a cell has no cells. -/
theorem cellCount_of_narrow {s : State} (hnarrow : s.width.toNat < 4) : cellCount s = 0 := by
  have hG : gridW s = 0 := Nat.div_eq_of_lt hnarrow
  rw [cellCount, hG, Nat.zero_mul]

/-! ### Which completion SCAN takes -/

theorem exec_scan_noFrame {s : State} (hnoFrame : s.pv = false) : exec .scan s = .next (takeError .noFrame s) := by
  obtain ⟨hpv, -⟩ | ⟨-, he⟩ | ⟨hpv, -⟩ | ⟨hpv, -⟩ := execScan_cases s
  · cases hpv.symm.trans hnoFrame
  · exact he
  · cases hpv.symm.trans hnoFrame
  · cases hpv.symm.trans hnoFrame

theorem exec_scan_badRange {s : State} (hpv : s.pv = true)
    (hrange : operand1 s < operand0 s ∨ s.params.symDepth < operand1 s - operand0 s) :
    exec .scan s = .next (takeError .badRange s) := by
  obtain ⟨-, hle, hfits, -⟩ | ⟨hnoFrame, -⟩ | ⟨-, -, he⟩ | ⟨-, hlt, hfits, -⟩ := execScan_cases s
  · omega
  · cases hpv.symm.trans hnoFrame
  · exact he
  · omega

theorem exec_scan_outOfBounds {s : State} (hpv : s.pv = true) (hlt : operand0 s < operand1 s)
    (hfits : operand1 s - operand0 s ≤ s.params.symDepth) (houtside : cellCount s < operand1 s) :
    exec .scan s = .next (takeError .outOfBounds s) := by
  obtain ⟨-, -, -, hinside, -⟩ | ⟨hnoFrame, -⟩ | ⟨-, hrange, -⟩ | ⟨-, -, -, -, he⟩ := execScan_cases s
  · omega
  · cases hpv.symm.trans hnoFrame
  · omega
  · exact he

theorem exec_scan_scanned {s : State} (hpv : s.pv = true) (hle : operand0 s ≤ operand1 s)
    (hfits : operand1 s - operand0 s ≤ s.params.symDepth)
    (hinside : operand0 s = operand1 s ∨ operand1 s ≤ cellCount s) : exec .scan s = .next (scanned s) := by
  obtain ⟨-, -, -, -, he⟩ | ⟨hnoFrame, -⟩ | ⟨-, hrange, -⟩ | ⟨-, hlt, -, houtside, -⟩ := execScan_cases s
  · exact he
  · cases hpv.symm.trans hnoFrame
  · omega
  · omega

/-- Settles O23: each premise picks its completion, and the checks before it pass. -/
theorem scanErrorsInOrder : Obligations.ScanErrorsInOrder :=
  ⟨rfl, fun _ => ⟨exec_scan_noFrame, fun hpv hreversed => exec_scan_badRange hpv (.inl hreversed),
    fun hpv _ htooLong => exec_scan_badRange hpv (.inr htooLong), exec_scan_outOfBounds⟩⟩

/-! ### What SCAN writes -/

/-- An entry of the range holds its cell's symbol. -/
theorem peek_scanned_of_lt {s : State} {k : Nat} (hk : k < operand1 s - operand0 s) :
    peek (scanned s) .sym k = symByte (cellSymbol s (operand0 s + k)) :=
  (byteAt_fill_lt _ _ _ _ _ hk).trans (narrow_symByte _)

/-- SYM past the range is as before. -/
theorem peek_scanned_of_ge {s : State} {a : Nat} (ha : operand1 s - operand0 s ≤ a) :
    peek (scanned s) .sym a = peek s .sym a :=
  byteAt_fill_ge _ _ _ _ _ ha

/-- The count of a range of words fits SYMCOUNT. -/
theorem toNat_symcount_scanned (s : State) : (scanned s).symcount.toNat = operand1 s - operand0 s :=
  toNat_u32 _ ((Nat.sub_le ..).trans_lt s.cur.a1.isLt)

/-- Settles O22: a range that passes the checks is filled in order, and `fill` writes no other entry. -/
theorem scanClassifiesTheRange : Obligations.ScanClassifiesTheRange := by
  intro s first last G hpv hle hfits hinside
  exact ⟨scanned s, exec_scan_scanned hpv hle hfits hinside, fun k hk => peek_scanned_of_lt hk,
    fun a ha => peek_scanned_of_ge ha, toNat_symcount_scanned s, rfl⟩

/-- Filling no address changes nothing. -/
@[simp] theorem fill_zero (m : Mem) (f : Nat → Byte) : m.fill 0 f = m := by
  simp [Mem.fill]

theorem scanned_of_empty {s : State} (hempty : operand0 s = operand1 s) :
    scanned s = doneWell { s with symcount := 0 } := by
  rw [scanned, hempty, Nat.sub_self, fill_zero]
  rfl

/-- Settles O25: with no cells only the empty range is inside the grid. -/
theorem zeroWidthGridScans : Obligations.ZeroWidthGridScans := by
  intro s hpv hnarrow
  refine ⟨fun hlt hfits => ?nonempty, fun heq => ?empty⟩
  case nonempty =>
    have houtside : cellCount s < s.cur.a1.toNat := by
      rw [cellCount_of_narrow hnarrow]
      exact Nat.zero_lt_of_lt hlt
    exact exec_scan_outOfBounds hpv hlt hfits houtside
  case empty =>
    have hempty : operand0 s = operand1 s := congrArg BitVec.toNat heq
    rw [← scanned_of_empty hempty]
    exact exec_scan_scanned hpv hempty.le (by omega) (.inl hempty)

end Sys2Proof.Proofs
end

section
/-! The packer: which completion PACKB and PACKI take (R207), the bytes of PACKB (R200 to R203) and the base-4
number of PACKI (R204 to R206, R208). -/

namespace Sys2Proof.Proofs

open Sys2Proof.Machine Sys2Proof.Laws

/-! ### Which completion the packer takes -/

theorem exec_packb_badLength (o : Order) {s : State} (hlength : operand1 s % 4 ≠ 0) :
    exec (.packb o) s = .next (takeError .badLength s) := by
  obtain ⟨hmul, -⟩ | ⟨-, he⟩ | ⟨hmul, -⟩ := execPackb_cases o s
  · exact absurd hmul hlength
  · exact he
  · exact absurd hmul hlength

theorem exec_packb_badRange (o : Order) {s : State} (hmul : operand1 s % 4 = 0)
    (hrange : s.symcount.toNat < operand0 s + operand1 s) :
    exec (.packb o) s = .next (takeError .badRange s) := by
  obtain ⟨-, hfits, -⟩ | ⟨hlength, -⟩ | ⟨-, -, he⟩ := execPackb_cases o s
  · exact absurd hrange hfits.not_gt
  · exact absurd hmul hlength
  · exact he

theorem exec_packb_packed (o : Order) {s : State} (hmul : operand1 s % 4 = 0)
    (hfits : operand0 s + operand1 s ≤ s.symcount.toNat) : exec (.packb o) s = .next (packed o s) := by
  obtain ⟨-, -, he⟩ | ⟨hlength, -⟩ | ⟨-, hrange, -⟩ := execPackb_cases o s
  · exact he
  · exact absurd hmul hlength
  · exact absurd hrange hfits.not_gt

theorem exec_packi_badRange (o : Order) {s : State} (hrange : s.symcount.toNat < operand0 s + operand1 s) :
    exec (.packi o) s = .next (takeError .badRange s) := by
  obtain ⟨hfits, -⟩ | ⟨-, he⟩ := execPacki_cases o s
  · exact absurd hrange hfits.not_gt
  · exact he

theorem exec_packi_packedWord (o : Order) {s : State} (hfits : operand0 s + operand1 s ≤ s.symcount.toNat) :
    exec (.packi o) s = .next (packedWord o s) := by
  obtain ⟨-, he⟩ | ⟨hrange, -⟩ := execPacki_cases o s
  · exact he
  · exact absurd hrange hfits.not_gt

/-- Settles O27: each premise picks its completion, and the check before it passes. -/
theorem packErrorsInOrder : Obligations.PackErrorsInOrder :=
  ⟨rfl, rfl, fun _ o => ⟨exec_packb_badLength o, exec_packb_badRange o, exec_packi_badRange o⟩⟩

/-! ### What PACKB writes -/

/-- R201: the first symbol is the most significant. -/
theorem toNat_packByte_msFirst (s0 s1 s2 s3 : Sym) :
    (packByte .msFirst s0 s1 s2 s3).toNat = 64 * s0.toNat + 16 * s1.toNat + 4 * s2.toNat + s3.toNat := by
  simp only [packByte, toNat_append_eq_add]
  omega

/-- R202: the same byte with its symbols in reverse. -/
theorem packByte_lsFirst (s0 s1 s2 s3 : Sym) : packByte .lsFirst s0 s1 s2 s3 = packByte .msFirst s3 s2 s1 s0 := rfl

/-- A byte of the range's chunks is written. -/
theorem peek_packed_of_lt (o : Order) {s : State} {m : Nat} (hm : m < operand1 s / 4) :
    peek (packed o s) .out m = packedByte o s (operand0 s) m :=
  byteAt_fill_lt _ _ _ _ _ hm

/-- OUT past the last chunk is as before. -/
theorem peek_packed_of_ge (o : Order) {s : State} {a : Nat} (ha : operand1 s / 4 ≤ a) :
    peek (packed o s) .out a = peek s .out a :=
  byteAt_fill_ge _ _ _ _ _ ha

/-- The number of chunks of a word's length fits OUTCOUNT. -/
theorem toNat_outcount_packed (o : Order) (s : State) : (packed o s).outcount.toNat = operand1 s / 4 :=
  toNat_u32 _ ((Nat.div_le_self ..).trans_lt s.cur.a1.isLt)

/-- R203: BSUM adds up the bytes that OUT holds afterwards. -/
theorem toNat_bsum_packed (o : Order) (s : State) :
    (packed o s).bsum.toNat = (∑ m ∈ Finset.range (operand1 s / 4), (peek (packed o s) .out m).toNat) % 2 ^ 32 := by
  have hbytes : ∀ m ∈ Finset.range (operand1 s / 4),
      (peek (packed o s) .out m).toNat = (packedByte o s (operand0 s) m).toNat := fun m hm =>
    congrArg BitVec.toNat (peek_packed_of_lt o (Finset.mem_range.mp hm))
  rw [Finset.sum_congr rfl hbytes, ← sumUpTo_eq_sum_range]
  exact BitVec.toNat_ofNat ..

/-- Settles O26: a range that passes the checks is written chunk by chunk, and `fill` writes no other byte. -/
theorem packbWritesBytesAndSum : Obligations.PackbWritesBytesAndSum := by
  intro s o off n hmul hfits
  refine ⟨packed o s, exec_packb_packed o hmul hfits, fun m hm => ?_, fun a ha => peek_packed_of_ge o ha,
    toNat_outcount_packed o s, toNat_bsum_packed o s, rfl⟩
  rw [peek_packed_of_lt o hm, packedByte]
  cases o with
  | msFirst => exact toNat_packByte_msFirst ..
  | lsFirst =>
    rw [packByte_lsFirst]
    exact toNat_packByte_msFirst ..

/-! ### The base-4 number of PACKI -/

theorem packedInt_msFirst_eq_sum (n : Nat) (x : Nat → Sym) :
    packedInt .msFirst n x = ∑ k ∈ Finset.range n, (x k).toNat * 4 ^ (n - 1 - k) :=
  sumUpTo_eq_sum_range ..

theorem packedInt_lsFirst_eq_sum (n : Nat) (x : Nat → Sym) :
    packedInt .lsFirst n x = ∑ k ∈ Finset.range n, (x k).toNat * 4 ^ k :=
  sumUpTo_eq_sum_range ..

/-- Settles O28: a range that passes the check is written to RESULT as its sum. -/
theorem packiWritesTheBaseFourNumber : Obligations.PackiWritesTheBaseFourNumber := by
  intro s o off n hfits
  rw [exec_packi_packedWord o hfits, packedWord]
  cases o with
  | msFirst =>
    rw [packedInt_msFirst_eq_sum]
    rfl
  | lsFirst =>
    rw [packedInt_lsFirst_eq_sum]
    rfl

/-- R206: LS-first is MS-first of the reversed range. -/
theorem packedInt_lsFirst_eq_msFirst_reverse (n : Nat) (x : Nat → Sym) :
    packedInt .lsFirst n x = packedInt .msFirst n fun k => x (n - 1 - k) := by
  rw [packedInt_lsFirst_eq_sum, packedInt_msFirst_eq_sum, ← Finset.sum_range_reflect]

/-- One more symbol MS-first: the number before it moves up by one base-4 digit. -/
theorem packedInt_msFirst_succ (n : Nat) (x : Nat → Sym) :
    packedInt .msFirst (n + 1) x = 4 * packedInt .msFirst n x + (x n).toNat := by
  have hshift : ∀ k ∈ Finset.range n, (x k).toNat * 4 ^ (n + 1 - 1 - k) = 4 * ((x k).toNat * 4 ^ (n - 1 - k)) := by
    intro k hk
    have hexp : n + 1 - 1 - k = n - 1 - k + 1 := by
      have := Finset.mem_range.mp hk
      omega
    rw [hexp, Nat.pow_succ]
    ring
  rw [packedInt_msFirst_eq_sum, packedInt_msFirst_eq_sum, Finset.sum_range_succ, Finset.sum_congr rfl hshift,
    Finset.mul_sum]
  simp

/-- R208: the accumulator of 32-bit words ends at the number modulo 2^32. -/
theorem foldl_eq_packedInt_msFirst (n : Nat) (x : Nat → Sym) :
    (List.range n).foldl (fun acc k => 4 * acc + (x k).setWidth 32) (0 : Word) = u32 (packedInt .msFirst n x) := by
  induction n with
  | zero => rfl
  | succ n ih =>
    rw [List.range_succ, List.foldl_append, ih, packedInt_msFirst_succ]
    simp [BitVec.ofNat_add, BitVec.ofNat_mul]

/-- Settles O29: both orders are the accumulator's, LS-first over the reversed range. -/
theorem packiIsTheWrappingAccumulator : Obligations.PackiIsTheWrappingAccumulator := by
  intro s off n hfits
  refine ⟨⟨_, exec_packi_packedWord .msFirst hfits, ?msFirst⟩, ⟨_, exec_packi_packedWord .lsFirst hfits, ?lsFirst⟩⟩
  case msFirst => exact (foldl_eq_packedInt_msFirst n fun k => symAt s (off + k)).symm
  case lsFirst =>
    rw [foldl_eq_packedInt_msFirst n fun k => symAt s (off + (n - 1 - k))]
    exact congrArg u32 (packedInt_lsFirst_eq_msFirst_reverse ..)

/-- MS-first, the first `m` symbols stand above the last `k`. -/
theorem packedInt_msFirst_add (m k : Nat) (x : Nat → Sym) :
    packedInt .msFirst (m + k) x = 4 ^ k * packedInt .msFirst m x + packedInt .msFirst k fun j => x (m + j) := by
  induction k with
  | zero => simp [packedInt, sumUpTo]
  | succ k ih =>
    rw [← Nat.add_assoc, packedInt_msFirst_succ, packedInt_msFirst_succ, ih]
    ring

/-- LS-first, the first `k` symbols stand below the last `m`. -/
theorem packedInt_lsFirst_add (k m : Nat) (x : Nat → Sym) :
    packedInt .lsFirst (k + m) x = 4 ^ k * (packedInt .lsFirst m fun j => x (k + j)) + packedInt .lsFirst k x := by
  simp only [packedInt_lsFirst_eq_sum]
  rw [Finset.sum_range_add, Finset.mul_sum, Nat.add_comm]
  refine congrArg (· + _) (Finset.sum_congr rfl fun j _ => ?_)
  ring

/-- `n` symbols are `n` base-4 digits. -/
theorem packedInt_msFirst_lt (n : Nat) (x : Nat → Sym) : packedInt .msFirst n x < 4 ^ n := by
  induction n with
  | zero => exact Nat.zero_lt_one
  | succ n ih =>
    have hdigit := (x n).isLt
    rw [packedInt_msFirst_succ, Nat.pow_succ]
    omega

/-- Sixteen symbols fill a word: what stands above them is lost. -/
theorem u32_four_pow_mul_add (a b : Nat) : u32 (4 ^ 16 * a + b) = u32 b :=
  BitVec.eq_of_toNat_eq (by simp only [BitVec.toNat_ofNat]; omega)

/-- Bit 1 of the first of sixteen symbols stands above the 15 symbols after it. -/
theorem getLsbD_packedInt_msFirst_sixteen (x : Nat → Sym) :
    (u32 (packedInt .msFirst 16 x)).getLsbD 31 = (x 0).getLsbD 1 := by
  have hfirst : packedInt .msFirst 1 x = (x 0).toNat := by simp [packedInt, sumUpTo]
  have hbelow : packedInt .msFirst 15 (fun j => x (1 + j)) < 2 ^ 30 := packedInt_msFirst_lt 15 _
  have hnumber : packedInt .msFirst 16 x = 2 ^ 30 * (x 0).toNat + packedInt .msFirst 15 fun j => x (1 + j) := by
    rw [← hfirst]
    exact packedInt_msFirst_add 1 15 x
  rw [hnumber, BitVec.getLsbD_ofNat, Nat.testBit_two_pow_mul_add _ hbelow]
  rfl

/-- Settles O30: the symbols beyond sixteen stand at and above 4^16 = 2^32. -/
theorem packiKeepsSixteenSymbols : Obligations.PackiKeepsSixteenSymbols := by
  intro n x hn
  refine ⟨?msFirst, ?lsFirst, getLsbD_packedInt_msFirst_sixteen x⟩
  case msFirst =>
    have hsplit := packedInt_msFirst_add (n - 16) 16 x
    rw [Nat.sub_add_cancel hn] at hsplit
    rw [hsplit, u32_four_pow_mul_add]
  case lsFirst =>
    have hsplit := packedInt_lsFirst_add 16 (n - 16) x
    rw [Nat.add_sub_cancel' hn] at hsplit
    rw [hsplit, u32_four_pow_mul_add]

end Sys2Proof.Proofs
end

section
/-! The command engine (R220 to R224): the engine's turn, an issue, the reserved words of R115, NOP and the STATUS write. -/

namespace Sys2Proof.Proofs

open Sys2Proof.Machine Sys2Proof.Laws Sys2Proof.Claims

/-! ### The engine's turn -/

theorem step_of_engineTurn {s u : State} (h : EngineTurn s u) : step s = engineStep u := by
  obtain ⟨hev, rfl⟩ | ⟨rest, hev, rfl⟩ := h <;> simp [step, stepEvents, hev, applyEvent]

theorem busy_of_engineTurn {s u : State} (h : EngineTurn s u) : u.busy = s.busy := by
  obtain ⟨-, rfl⟩ | ⟨rest, -, rfl⟩ := h <;> rfl

theorem cur_of_engineTurn {s u : State} (h : EngineTurn s u) : u.cur = s.cur := by
  obtain ⟨-, rfl⟩ | ⟨rest, -, rfl⟩ := h <;> rfl

theorem engineStep_idle {s : State} (hidle : s.busy = false) : engineStep s = .next s := by
  simp [engineStep, hidle]

theorem engineStep_of_decode_ok {s : State} {i : Instr} (hbusy : s.busy = true) (hd : decode s.cur.word = .ok i) :
    engineStep s = exec i s := by
  simp [engineStep, completeCommand, hbusy, hd]

theorem engineStep_of_decode_error {s : State} {r : Reserved} (hbusy : s.busy = true)
    (hd : decode s.cur.word = .error r) : engineStep s = .next (takeError .badCommand s) := by
  simp [engineStep, completeCommand, hbusy, hd]

/-- Settles O5: the engine's turn of an idle block answers with the state it is given. -/
theorem idleEngineHasNoStep : Obligations.IdleEngineHasNoStep := by
  intro s u hidle hturn
  rw [step_of_engineTurn hturn, engineStep_idle ((busy_of_engineTurn hturn).trans hidle)]

/-! ### The latched command -/

theorem withFetchWord_toNat (s : State) (w : Word) : s.withFetchWord 32 w.toNat = issuedNext w s := by
  rw [State.withFetchWord, Nat.mod_eq_of_lt w.isLt, u32, BitVec.ofNat_toNat, BitVec.setWidth_eq]

theorem engineTurn_issuedNext (w : Word) (s : State) : EngineTurn (issuedNext w s) (issue w s) :=
  .inr ⟨s.events, rfl, rfl⟩

/-- Settles O4: the engine's turn, on the list or by default, decodes the latch, and an issue fills the latch. -/
theorem stepRunsTheLatchedCommand : Obligations.StepRunsTheLatchedCommand := by
  refine ⟨fun s u i hbusy hturn hd => ?_, fun s w i hd => ?_⟩
  · rw [step_of_engineTurn hturn]
    exact engineStep_of_decode_ok ((busy_of_engineTurn hturn).trans hbusy) (cur_of_engineTurn hturn ▸ hd)
  · rw [withFetchWord_toNat, step_of_engineTurn (engineTurn_issuedNext w s)]
    exact engineStep_of_decode_ok (s := issue w s) rfl hd

theorem writeCmd_idle {s : State} (hidle : s.busy = false) (w : Word) : writeCmd w s = issue w s := by
  simp [writeCmd, hidle]

/-- Settles O6: `writeCmd` tests BUSY, then issues the word or loses it. -/
theorem cmdWriteIssuesOrIsLost : Obligations.CmdWriteIssuesOrIsLost := fun s w =>
  ⟨fun hidle => writeCmd_idle hidle w, fun hbusy => writeCmd_busy hbusy w⟩

/-! ### Reserved words -/

theorem exists_decode_error_iff (w : Word) : (∃ r, decode w = .error r) ↔ ∀ i, w ≠ encode i := by
  simp only [ne_eq, ← decode_eq_ok_iff]
  cases decode w <;> simp

/-- The eight words of R113, as numbers. -/
theorem exists_eq_encode_iff (w : Word) :
    (∃ i, w = encode i) ↔ w.toNat ∈ [0, 1, 2, 3, 4, 5, 0x104, 0x105] := by
  constructor
  · rintro ⟨_ | _ | _ | _ | (_ | _) | (_ | _), rfl⟩ <;> decide
  · simp only [List.mem_cons, List.not_mem_nil, or_false]
    have hword {i : Instr} (h : w.toNat = (encode i).toNat) : ∃ i, w = encode i := ⟨i, BitVec.eq_of_toNat_eq h⟩
    rintro (h | h | h | h | h | h | h | h)
    exacts [hword (i := .nop) h, hword (i := .convert) h, hword (i := .classify) h, hword (i := .scan) h,
      hword (i := .packb .msFirst) h, hword (i := .packi .msFirst) h, hword (i := .packb .lsFirst) h,
      hword (i := .packi .lsFirst) h]

/-- R115's three grounds for a reserved word, in numbers: together they leave out exactly the eight words of R113. -/
theorem exists_decode_error_iff_grounds (w : Word) : (∃ r, decode w = .error r) ↔
    6 ≤ w.toNat % 256 ∨ w.toNat / 512 ≠ 0 ∨
      (w.toNat / 256 % 2 = 1 ∧ w.toNat % 256 ≠ 4 ∧ w.toNat % 256 ≠ 5) := by
  rw [exists_decode_error_iff, ← not_exists, exists_eq_encode_iff]
  simp only [List.mem_cons, List.not_mem_nil, or_false]
  omega

/-- Settles O3: a reserved word is none of the eight commands' words, and the engine's turn takes BAD_COMMAND for it. -/
theorem reservedWordsCompleteWithBadCommand : Obligations.ReservedWordsCompleteWithBadCommand := by
  refine ⟨exists_decode_error_iff_grounds, fun s u hbusy hturn ⟨r, hd⟩ => ?_, rfl⟩
  rw [step_of_engineTurn hturn]
  exact engineStep_of_decode_error ((busy_of_engineTurn hturn).trans hbusy) (cur_of_engineTurn hturn ▸ hd)

/-! ### NOP and the STATUS write -/

/-- Settles O9: NOP is the completion alone, and `cmd NOP; wait` is an issue, that completion and a read. -/
theorem nopOnlyCompletes : Obligations.NopOnlyCompletes := by
  obtain ⟨hdecode, -⟩ := fullCommandWordsDecode
  refine ⟨fun s => rfl, hdecode, ?_⟩
  have hrun : runPseudo .nop State.reset =
      hostAccess (.regRead Reg.status.offset) (succeed (issue (encode .nop) State.reset)) := cmd_wait rfl .nop rfl
  rw [hrun]
  rfl

/-- Settles O36: the STATUS write is `clearStatus`, whatever the state. -/
theorem statusWriteClearsNamedBits : Obligations.StatusWriteClearsNamedBits := fun s v => clearStatus_eq_ite v s

end Sys2Proof.Proofs
end

section
/-! The parts of the host sequence that read the grid: what each answers with on a block that holds a picture (R237 to
R241). -/

namespace Sys2Proof.Proofs

open Sys2Proof.Machine Sys2Proof.Laws Sys2Proof.Claims

/-! ### Pictures and answers -/

/-- What the sequence reads of a converted frame: the constants, the number of cells and their symbols. -/
structure Picture where
  params : Params
  cells : Nat
  stream : Nat → Sym

/-- An idle block that holds the picture. -/
structure Picture.Shown (v : Picture) (s : State) : Prop where
  idle : s.busy = false
  pv : s.pv = true
  legal : s.params.Legal
  params : s.params = v.params
  cells : cellCount s = v.cells
  stream : cellSymbol s = v.stream

variable {α β : Type} {v : Picture}

theorem Picture.Shown.of_samePicture {s t : State} (h : v.Shown s) (ht : SamePicture s t) : v.Shown t where
  idle := ht.idle
  pv := ht.pv.trans h.pv
  legal := ht.params ▸ h.legal
  params := ht.params.trans h.params
  cells := ht.cellCount.trans h.cells
  stream := (funext ht.cellSymbol).trans h.stream

/-- The picture that a block holds. -/
def pictureOf (s : State) : Picture := { params := s.params, cells := cellCount s, stream := cellSymbol s }

theorem shown_pictureOf {s : State} (hidle : s.busy = false) (hpv : s.pv = true) (hlegal : s.params.Legal) :
    (pictureOf s).Shown s := by
  refine ⟨hidle, hpv, hlegal, ?_, ?_, ?_⟩ <;> simp only [pictureOf]

theorem Picture.Shown.of_replies {s : State} (h : v.Shown s) (rs : List Reply) : v.Shown { s with replies := rs } :=
  h.of_samePicture ⟨rfl, h.idle, rfl, rfl, rfl, rfl⟩

theorem Picture.Shown.symDepth {s : State} (h : v.Shown s) :
    16 ≤ v.params.symDepth ∧ v.params.symDepth < 2 ^ 32 ∧ v.params.symDepth % 4 = 0 := by
  obtain ⟨-, -, -, -, hmin, hmax, hmul⟩ := h.params ▸ h.legal
  exact ⟨hmin, by omega, hmul⟩

/-- From every block that holds the picture, part `p` answers with `r`, and holds it still when the sequence goes on. -/
def Picture.Answers (v : Picture) (p : HostPart α) (r : Except HostResult α) : Prop :=
  ∀ s, v.Shown s → ∃ t, p s = (r, t) ∧ ∀ a, r = .ok a → v.Shown t

theorem Picture.Answers.fst {p : HostPart α} {r : Except HostResult α} (h : v.Answers p r) {s : State}
    (hs : v.Shown s) : (p s).1 = r := by
  obtain ⟨t, hp, -⟩ := h s hs
  rw [hp]

/-- Two parts in a row answer as their answers in a row: the first that ends the sequence decides (R242). -/
theorem Picture.Answers.andThen {p : HostPart α} {k : α → HostPart β} {r : Except HostResult α}
    {f : α → Except HostResult β} (hp : v.Answers p r) (hk : ∀ a, r = .ok a → v.Answers (k a) (f a)) :
    v.Answers (p.andThen k) (r.bind f) := by
  intro s hs
  obtain ⟨t, hp, ht⟩ := hp s hs
  cases r with
  | error e => exact ⟨t, andThen_error hp, nofun⟩
  | ok a =>
    obtain ⟨u, hu, hkeeps⟩ := hk a rfl t (ht a rfl)
    exact ⟨u, (andThen_ok hp).trans hu, hkeeps⟩

/-- After a part with one way to end the sequence. -/
theorem Picture.Answers.check_andThen {p : HostPart α} {k : α → HostPart β} {c : Prop} [Decidable c] {e : HostResult}
    {a : α} {r : Except HostResult β} (hp : v.Answers p (if c then .error e else .ok a)) (hk : v.Answers (k a) r) :
    v.Answers (p.andThen k) (if c then .error e else r) := by
  by_cases hc : c
  · rw [if_pos hc] at hp ⊢
    exact hp.andThen (f := fun _ => r) nofun
  · rw [if_neg hc] at hp ⊢
    refine hp.andThen (f := fun _ => r) fun b hb => ?_
    cases hb
    exact hk

/-- After a part with no way to end the sequence. -/
theorem Picture.Answers.ok_andThen {p : HostPart α} {k : α → HostPart β} {a : α} {r : Except HostResult β}
    (hp : v.Answers p (.ok a)) (hk : v.Answers (k a) r) : v.Answers (p.andThen k) r :=
  hp.andThen (f := fun _ => r) fun b hb => by
    cases hb
    exact hk

theorem answers_value (v : Picture) (a : α) : v.Answers (fun s => (.ok a, s)) (.ok a) :=
  fun s hs => ⟨s, rfl, fun _ _ => hs⟩

theorem answers_failIf (v : Picture) (c : Prop) [Decidable c] (e : HostResult) :
    v.Answers (failIf (decide c) e) (if c then .error e else .ok ()) := by
  intro s hs
  by_cases hc : c
  · rw [if_pos hc]
    exact ⟨s, failIf_true hc e s, nofun⟩
  · rw [if_neg hc]
    exact ⟨s, failIf_false hc e s, fun _ _ => hs⟩

theorem readPart_eq (r : Reg) (s : State) :
    readPart r s = (.ok (readReg s r), pushReply (.word (readReg s r)) s) := by
  simp [readPart, hostAccess]

/-- A register whose value the picture determines. -/
theorem answers_readPart {r : Reg} {w : Word} (hw : ∀ s, v.Shown s → readReg s r = w) :
    v.Answers (readPart r) (.ok w) :=
  fun s hs => ⟨_, hw s hs ▸ readPart_eq r s, fun _ _ => hs.of_replies _⟩

/-! ### A field of sixteen symbols -/

/-- R237: a SCAN of up to sixteen symbols, past the last cell, ends the sequence. -/
theorem runOr_scan_outside {s : State} (hs : v.Shown s) {a n : Nat} (hpos : 0 < n) (hn : n ≤ 16)
    (houtside : v.cells < a + n) (ha : a ≤ 48) :
    ∃ t, runOr scanError (.scan (u32 a) (u32 (a + n))) s = (.error .outOfBounds, t) := by
  have hdepth : a + n - a ≤ s.params.symDepth := by
    rw [hs.params, Nat.add_sub_cancel_left]
    exact hn.trans hs.symDepth.1
  obtain ⟨t, ht⟩ := runCommand_scan_outside hs.idle hs.pv a (a + n) (by omega) hdepth (hs.cells ▸ houtside) (by omega)
  exact ⟨t, runOr_error (by decide) ht⟩

/-- A SCAN inside the grid and SYM leaves the stream's symbols in SYM (R180, R237). -/
theorem runOr_scan_inside {s : State} (hs : v.Shown s) (f : BitVec 4 → HostResult) {a n : Nat}
    (hdepth : n ≤ v.params.symDepth) (hinside : a + n ≤ v.cells) :
    ∃ t, runOr f (.scan (u32 a) (u32 (a + n))) s = (.ok (), t) ∧ v.Shown t ∧ t.symcount.toNat = n ∧
      ∀ k, k < n → symAt t k = v.stream (a + k) := by
  have hn : a + n - a = n := Nat.add_sub_cancel_left a n
  obtain ⟨t, hscan, hst, hcount, hsym⟩ := runCommand_scan hs.idle hs.pv a (a + n) (Nat.le_add_right a n)
    (by rw [hn, hs.params]; exact hdepth) (hs.cells ▸ hinside)
  rw [hn] at hcount hsym
  exact ⟨t, runOr_ok hscan, hs.of_samePicture hst, hcount, hs.stream ▸ hsym⟩

/-- The number PACKI leaves for sixteen symbols, read as signed, is the field of the stream (R205, R239). -/
theorem streamInt_eq_packedInt {x y : Nat → Sym} {a : Nat} (h : ∀ k, k < 16 → y k = x (a + k)) :
    s32 (u32 (packedInt .msFirst 16 y)) = streamInt x a := by
  rw [packedInt_msFirst_eq_sum, streamInt]
  exact congrArg (fun n => s32 (u32 n)) (Finset.sum_congr rfl fun k hk => by rw [h k (Finset.mem_range.mp hk)])

/-- `read_int` inside the grid gives the field, and outside it ends the sequence (R239). -/
theorem answers_readInt (v : Picture) {a : Nat} (ha : a ≤ 48) :
    v.Answers (readInt a) (if v.cells < a + 16 then .error .outOfBounds else .ok (streamInt v.stream a)) := by
  intro s hs
  by_cases hcells : v.cells < a + 16
  · rw [if_pos hcells]
    obtain ⟨t, ht⟩ := runOr_scan_outside hs (by decide) le_rfl hcells ha
    exact ⟨t, andThen_error ht, nofun⟩
  · rw [if_neg hcells]
    obtain ⟨t, hscan, ht, hcount, hsym⟩ := runOr_scan_inside hs scanError hs.symDepth.1 (not_lt.mp hcells)
    obtain ⟨u, hpacki, htu, hresult⟩ := runCommand_packi ht.idle hcount.ge
    have hfield : s32 u.result = streamInt v.stream a := hresult ▸ streamInt_eq_packedInt hsym
    refine ⟨_, ?_, fun _ _ => (ht.of_samePicture htu).of_replies (.word u.result :: u.replies)⟩
    rw [readInt, andThen_ok hscan, andThen_ok (runOr_ok hpacki), andThen_ok (readPart_eq .result u), ← hfield]
    rfl

/-! ### A chunk of the grid as bytes -/

/-- The checksum of a byte string: its 32-bit sum (R203, R241). -/
def byteSum (l : List Byte) : Word := u32 (l.map BitVec.toNat).sum

theorem byteSum_append (l l' : List Byte) : byteSum (l ++ l') = byteSum l + byteSum l' := by
  simp [byteSum, BitVec.ofNat_add]

theorem packByte_eq_streamByte (x : Nat → Sym) (a : Nat) :
    packByte .msFirst (x a) (x (a + 1)) (x (a + 2)) (x (a + 3)) = streamByte x a := by
  rw [streamByte, ← toNat_packByte_msFirst, BitVec.ofNat_toNat, BitVec.setWidth_eq]

theorem streamBytes_add (x : Nat → Sym) (a m n : Nat) :
    streamBytes x a (m + n) = streamBytes x a m ++ streamBytes x (a + 4 * m) n := by
  simp [streamBytes, List.range_add, Nat.mul_add, Nat.add_assoc]

@[simp] theorem length_streamBytes (x : Nat → Sym) (a n : Nat) : (streamBytes x a n).length = n := by
  simp [streamBytes]

theorem byteSum_streamBytes (x : Nat → Sym) (a n : Nat) :
    byteSum (streamBytes x a n) = u32 (sumUpTo n fun m => (streamByte x (a + 4 * m)).toNat) := by
  simp [byteSum, streamBytes, sumUpTo, Function.comp_def]

theorem sumUpTo_congr {n : Nat} {f g : Nat → Nat} (h : ∀ m, m < n → f m = g m) : sumUpTo n f = sumUpTo n g :=
  congrArg List.sum (List.map_congr_left fun m hm => h m (List.mem_range.mp hm))

/-- The host reads back the bytes that stand at the start of OUT (R240). -/
theorem readOutPart_bytes {s : State} (hs : v.Shown s) {n : Nat} (hn : n ≤ v.params.symDepth / 4) :
    ∃ t, readOutPart n s = (.ok ((List.range n).map (peek s .out)), t) ∧ v.Shown t ∧ t.bsum = s.bsum := by
  have hdepth : s.params.outDepth = v.params.symDepth / 4 := by rw [Params.outDepth, hs.params]
  have hword := hs.symDepth
  obtain ⟨hread, hkeeps⟩ := readOut_bytes n 0 s hs.idle (by omega) (by omega)
  simp only [Nat.zero_add] at hread
  refine ⟨(readOut n 0 s).2, Prod.ext (congrArg Except.ok hread) rfl, ?_, (congrArg State.bsum hkeeps :)⟩
  rw [hkeeps]
  exact hs.of_replies _

/-- SCAN of a chunk of the grid, PACKB of its symbols and the reads of OUT go on with the bytes of the stream, their sum
left in BSUM (R237, R240). -/
theorem chunk_andThen {s : State} (hs : v.Shown s) (f g : BitVec 4 → HostResult) {p n : Nat} (hmul : n % 4 = 0)
    (hdepth : n ≤ v.params.symDepth) (hinside : p + n ≤ v.cells) (k : List Byte → HostPart α) :
    ∃ t, ((runOr f (.scan (u32 p) (u32 (p + n)))).andThen fun _ =>
        (runOr g (.packb .msFirst 0 (u32 n))).andThen fun _ => (readOutPart (n / 4)).andThen k) s = k (streamBytes v.stream p (n / 4)) t ∧
      v.Shown t ∧ t.bsum = byteSum (streamBytes v.stream p (n / 4)) := by
  obtain ⟨t, hscan, ht, hcount, hsym⟩ := runOr_scan_inside hs f hdepth hinside
  obtain ⟨u, hpackb, htu, hout, hbsum⟩ := runCommand_packb ht.idle n hmul hcount.ge
  obtain ⟨w, hread, hw, hkept⟩ := readOutPart_bytes (ht.of_samePicture htu) (Nat.div_le_div_right hdepth)
  have hbyte (m : Nat) (hm : m < n / 4) : packedByte .msFirst t 0 m = streamByte v.stream (p + 4 * m) := by
    rw [← packByte_eq_streamByte, packedByte, hsym _ (by omega), hsym _ (by omega), hsym _ (by omega),
      hsym _ (by omega)]
    simp only [Nat.zero_add, Nat.add_assoc]
  have hbytes : (List.range (n / 4)).map (peek u .out) = streamBytes v.stream p (n / 4) :=
    List.map_congr_left fun m hm =>
      (hout m (List.mem_range.mp hm)).trans (hbyte m (List.mem_range.mp hm))
  refine ⟨w, ?_, hw, ?_⟩
  · rw [andThen_ok hscan, andThen_ok (runOr_ok hpackb), andThen_ok hread, hbytes]
  · rw [hkept, hbsum, byteSum_streamBytes, sumUpTo_congr fun m hm => congrArg BitVec.toNat (hbyte m hm)]

theorem answers_readBody_empty (v : Picture) (K fuel p : Nat) (body : List Byte) (sum : Word) :
    v.Answers (readBody K fuel p 0 body sum)
      (.ok (body ++ streamBytes v.stream p 0, sum + byteSum (streamBytes v.stream p 0))) := by
  have hvalue := answers_value v (body, sum)
  cases fuel <;> simpa [streamBytes, byteSum, readBody] using hvalue

/-- `read_body` gives the bytes of its range and their sum, added to what it has, in chunks of any size (R240). -/
theorem answers_readBody {K : Nat} (hK : 4 ≤ K) (hKmul : K % 4 = 0) (hdepth : K ≤ v.params.symDepth) {fuel p r : Nat}
    (hmul : r % 4 = 0) (hfuel : r ≤ fuel) (hinside : p + r ≤ v.cells) (body : List Byte) (sum : Word) :
    v.Answers (readBody K fuel p r body sum)
      (.ok (body ++ streamBytes v.stream p (r / 4), sum + byteSum (streamBytes v.stream p (r / 4)))) := by
  induction fuel generalizing p r body sum with
  | zero =>
    obtain rfl : r = 0 := Nat.le_zero.mp hfuel
    exact answers_readBody_empty v K 0 p body sum
  | succ fuel ih =>
    by_cases hr : r = 0
    · subst hr
      exact answers_readBody_empty v K (fuel + 1) p body sum
    intro s hs
    rw [readBody, if_neg hr]
    have hn : min r K % 4 = 0 ∧ 0 < min r K ∧ min r K ≤ K ∧ min r K ≤ r := by omega
    generalize min r K = n at hn ⊢
    obtain ⟨hnmul, hnpos, hnK, hnr⟩ := hn
    obtain ⟨t, hchunk, ht, hbsum⟩ := chunk_andThen hs scanError scanError hnmul (hnK.trans hdepth)
      (p := p) (by omega) fun bytes => (readPart .bsum).andThen fun chunkSum =>
        readBody K fuel (p + n) (r - n) (body ++ bytes) (sum + chunkSum)
    have hsplit : streamBytes v.stream p (r / 4) =
        streamBytes v.stream p (n / 4) ++ streamBytes v.stream (p + n) ((r - n) / 4) := by
      have hcells : 4 * (n / 4) = n := by omega
      have hbytes : r / 4 = n / 4 + (r - n) / 4 := by omega
      rw [hbytes, streamBytes_add, hcells]
    rw [hchunk, andThen_ok (readPart_eq .bsum t), hsplit, byteSum_append, ← List.append_assoc, ← BitVec.add_assoc,
      ← hbsum]
    exact ih (by omega) (by omega) (by omega) _ _ _ (ht.of_replies _)

/-- Settles O59: either chunk size gives the bytes of the range and their sum. -/
theorem bodyChunkingChangesNothing : Obligations.BodyChunkingChangesNothing := by
  intro s K L p r hidle hpv hlegal hK hKmul hKdepth hL hLmul hLdepth hmul hinside
  have hbody {K : Nat} (hK : 4 ≤ K) (hKmul : K % 4 = 0) (hKdepth : K ≤ s.params.symDepth) :=
    (answers_readBody (v := pictureOf s) hK hKmul hKdepth hmul le_rfl hinside [] 0).fst
      (shown_pictureOf hidle hpv hlegal)
  refine ⟨_, _, ?_, hbody hK hKmul hKdepth, hbody hL hLmul hLdepth⟩
  rw [List.nil_append, length_streamBytes]

end Sys2Proof.Proofs
end

section
/-! The five steps of the host sequence on a picture (R236 to R242): their answers in a row are the protocol's table. -/

namespace Sys2Proof.Proofs

open Sys2Proof.Machine Sys2Proof.Laws Sys2Proof.Claims

variable {v : Picture}

/-! ### Each step -/

theorem answers_readMagic (v : Picture) : v.Answers readMagic
    (if v.cells < 16 then .error .outOfBounds
      else if streamBytes v.stream 0 4 ≠ magicBytes then .error .invalidMagic else .ok ()) := by
  intro s hs
  by_cases hcells : v.cells < 16
  · rw [if_pos hcells]
    obtain ⟨t, ht⟩ := runOr_scan_outside hs (a := 0) (n := 16) (by decide) le_rfl hcells (by decide)
    exact ⟨t, andThen_error ht, nofun⟩
  · rw [if_neg hcells]
    obtain ⟨t, hchunk, ht, -⟩ := chunk_andThen hs scanError HostResult.hardwareError (p := 0) (n := 16) rfl
      hs.symDepth.1 (not_lt.mp hcells) fun m => failIf (m ≠ magicBytes) .invalidMagic
    obtain ⟨u, hu, hkeeps⟩ := answers_failIf v (streamBytes v.stream 0 4 ≠ magicBytes) .invalidMagic t ht
    exact ⟨u, hchunk.trans hu, hkeeps⟩

theorem answers_readVersion (v : Picture) : v.Answers readVersion
    (if v.cells < 32 then .error .outOfBounds
      else if streamInt v.stream 16 ≤ 0 then .error .invalidVersion else .ok ()) :=
  (answers_readInt v (by decide)).check_andThen (answers_failIf v _ _)

/-- CAPACITY, read as signed, is the room for body bytes (R46). -/
theorem answers_readCapacity {s : State} (hs : v.Shown s) :
    ∃ w, s32 w = ((v.cells : Int) - 64) / 4 ∧ v.Answers (readPart .capacity) (.ok w) := by
  refine ⟨readReg s .capacity, ?_, answers_readPart fun t ht => ?_⟩
  · rw [toInt_capacity, capacityBytes, hs.cells]
  · rw [readReg, readReg, capacityBytes, capacityBytes, ht.cells, hs.cells]

theorem answers_readLength (v : Picture) : v.Answers readLength
    (if v.cells < 48 then .error .outOfBounds
      else if ((v.cells : Int) - 64) / 4 < streamInt v.stream 32 then .error .bodyTooLong
      else if streamInt v.stream 32 < 0 then .error .invalidBodyLength
      else .ok (streamInt v.stream 32).toNat) := by
  intro s hs
  obtain ⟨capacity, hcapacity, hread⟩ := answers_readCapacity hs
  refine (answers_readInt v (by decide)).check_andThen ?_ s hs
  generalize streamInt v.stream 32 = len
  refine hread.ok_andThen ?_
  rw [hcapacity]
  exact (answers_failIf v _ _).check_andThen ((answers_failIf v _ _).check_andThen (answers_value v _))

/-- SYMDEPTH is a multiple of 4, so the chunk size is the whole of SYM (R9, R240). -/
theorem answers_readSymdepth {s : State} (hs : v.Shown s) :
    ∃ w, chunkSize w = v.params.symDepth ∧ v.Answers (readPart .symdepth) (.ok w) := by
  obtain ⟨-, hword, hmul⟩ := hs.symDepth
  refine ⟨u32 v.params.symDepth, ?_, answers_readPart fun t ht => by rw [readReg, ht.params]⟩
  rw [chunkSize, toNat_u32 _ hword, hmul, Nat.sub_zero]

/-- CHECKSUM and BODY of a body that lies inside the grid (R240, R241). -/
theorem answers_readChecked (v : Picture) {len : Nat} (hinside : 64 + 4 * len ≤ v.cells) : v.Answers (readChecked len)
    (if s32 (byteSum (streamBytes v.stream 64 len)) ≠ streamInt v.stream 48 then .error .checksumMismatch
      else .ok (streamBytes v.stream 64 len)) := by
  intro s hs
  obtain ⟨symdepth, hchunk, hread⟩ := answers_readSymdepth hs
  obtain ⟨hmin, -, hmul⟩ := hs.symDepth
  have hchecksum := answers_readInt v (a := 48) le_rfl
  rw [if_neg (by omega)] at hchecksum
  have hbody := answers_readBody (v := v) (by omega) hmul le_rfl (Nat.mul_mod_right 4 len) le_rfl hinside [] 0
  rw [Nat.mul_div_cancel_left len four_pos, List.nil_append, BitVec.ofNat_eq_ofNat, BitVec.zero_add, ← hchunk] at hbody
  refine hchecksum.ok_andThen ?_ s hs
  refine hread.ok_andThen (hbody.ok_andThen ?_)
  exact (answers_failIf v _ _).check_andThen (answers_value v _)

/-! ### The steps in a row -/

theorem bind_ok {α β : Type} (a : α) (f : α → Except HostResult β) : (Except.ok a).bind f = f a := by
  simp only [Except.bind]

theorem bind_error {α β : Type} (e : HostResult) (f : α → Except HostResult β) :
    (Except.error e).bind f = .error e := by
  simp only [Except.bind]

/-- A check before an answer stands before what follows it, too. -/
theorem bind_ite {α β : Type} (c : Prop) [Decidable c] (r r' : Except HostResult α) (f : α → Except HostResult β) :
    (if c then r else r').bind f = if c then r.bind f else r'.bind f :=
  apply_ite (fun r => r.bind f) c r r'

/-- The result of the sequence from the answer of its parts. -/
def resultOf : Except HostResult (List Byte) → HostResult
  | .ok body => .ok body
  | .error e => e

/-- A body that BODY_LENGTH accepts lies inside the grid (R239). -/
theorem body_inside {cells : Nat} {len : Int} (hcapacity : ¬ ((cells : Int) - 64) / 4 < len) (hnegative : ¬ len < 0) :
    64 + 4 * len.toNat ≤ cells := by
  omega

/-- R242: the steps in their order, each deciding when it fails. -/
theorem resultOf_readFields {s : State} (hs : v.Shown s) :
    resultOf (readFields s).1 = protocolResult v.cells v.stream := by
  have hsteps := (answers_readMagic v).andThen fun _ _ => (answers_readVersion v).andThen fun _ _ =>
    (answers_readLength v).andThen fun len hlen => answers_readChecked v (len := len) (by
      split_ifs at hlen with hcells hcapacity hnegative
      rw [← Except.ok.inj hlen]
      exact body_inside hcapacity hnegative)
  rw [readFields, hsteps.fst hs, protocolResult, ← magicBytes]
  simp only [bind_ite, bind_error, bind_ok, apply_ite resultOf]
  rfl

end Sys2Proof.Proofs
end

section
/-! The frame buffer loaded into FRAME and converted (R235 to R237): the picture it becomes, and the result of the sequence
on it. -/

namespace Sys2Proof.Proofs

open Sys2Proof.Machine Sys2Proof.Laws Sys2Proof.Claims

/-! ### Loading -/

/-- One `wrm FRAME[a], frame[a]` of R237 (`loadFrame_eq_foldl`). -/
def storeFrameByte (t : State) (c : Byte × Nat) : State :=
  if c.2 < 2 ^ 32 then hostAccess (.memWrite .frame (u32 c.2) c.1) t else t

theorem loadFrame_eq_foldl (frame : List Byte) (s : State) :
    loadFrame frame s = frame.zipIdx.foldl storeFrameByte s := rfl

theorem loadFrame_concat (frame : List Byte) (b : Byte) (s : State) :
    loadFrame (frame ++ [b]) s = storeFrameByte (loadFrame frame s) (b, frame.length) := by
  simp [loadFrame_eq_foldl, List.zipIdx_append]

/-- On an idle block the byte is stored when it lies inside FRAME (R83). -/
theorem storeFrameByte_idle {s : State} (hidle : s.busy = false) (hlegal : s.params.Legal) (b : Byte) (a : Nat) :
    storeFrameByte s (b, a) =
      if a < s.params.frameDepth then { s with frame := s.frame.put .frame a b } else s := by
  obtain ⟨-, hdepth, -⟩ := hlegal
  by_cases ha : a < 2 ^ 32
  · have haddr := toNat_u32 a ha
    rw [storeFrameByte, if_pos ha, hostAccess]
    by_cases hin : a < s.params.frameDepth
    · rw [if_pos hin, storeByte_inside hidle rfl (haddr.symm ▸ hin), haddr]
      rfl
    · rw [if_neg hin, storeByte_pastEnd (haddr.symm ▸ not_lt.mp hin)]
  · rw [storeFrameByte, if_neg ha, if_neg (by omega)]

/-- Loading changes FRAME alone, and each byte of the buffer that lies inside FRAME stands at its place. -/
theorem loadFrame_idle {s : State} (hidle : s.busy = false) (hlegal : s.params.Legal) (frame : List Byte) :
    ∃ m : Mem, loadFrame frame s = { s with frame := m } ∧
      ∀ a, a < frame.length → a < s.params.frameDepth → m.byteAt .frame a = frame.getD a 0 := by
  induction frame using List.reverseRecOn with
  | nil => exact ⟨s.frame, rfl, nofun⟩
  | append_singleton frame b ih =>
    obtain ⟨m, hload, hbytes⟩ := ih
    rw [loadFrame_concat, hload, storeFrameByte_idle (s := { s with frame := m }) hidle hlegal]
    have hold (a : Nat) (ha : a < frame.length) : (frame ++ [b]).getD a 0 = frame.getD a 0 :=
      List.getD_append _ _ _ _ ha
    by_cases hin : frame.length < s.params.frameDepth
    · rw [if_pos hin]
      refine ⟨_, rfl, fun a ha hdepth => ?_⟩
      rw [List.length_append, List.length_singleton] at ha
      obtain rfl | hlt : a = frame.length ∨ a < frame.length := by omega
      · rw [byteAt_put_self]
        simp [narrow]
      · rw [byteAt_put_of_ne _ _ _ _ _ hlt.ne, hold a hlt]
        exact hbytes a hlt hdepth
    · rw [if_neg hin]
      refine ⟨m, rfl, fun a _ hdepth => ?_⟩
      have hlt : a < frame.length := hdepth.trans_le (not_lt.mp hin)
      rw [hold a hlt]
      exact hbytes a hlt hdepth

/-! ### Converting -/

/-- The block as CONVERT finds it, when the sequence issues it on `s` (R118, R221). -/
def convertIssued (W H : Dim) (s : State) : State :=
  issue (encode .convert) { s with width := W, height := H, pv := false }

/-- `run` of CONVERT with dimensions on an idle block (R237). -/
theorem runCommand_convertAs {s u : State} (hidle : s.busy = false) (W H : Dim)
    (h : exec .convert (convertIssued W H s) = .next u) :
    ∃ t, runCommand (.convertAs (W.setWidth 32) (H.setWidth 32)) s = (u.errcode.code, t) ∧
      t = { u with replies := t.replies } := by
  have hdims : [AsmStmt.wr .width (W.setWidth 32), .wr .height (H.setWidth 32)].foldl runStmt s =
      { s with width := W, height := H, pv := false } := by
    have hnarrow (d : Dim) : (d.setWidth 32).setWidth 16 = d := by simp
    simp [runStmt, hostAccess, writeReg, writeWidth_idle, writeHeight_idle, hidle, hnarrow]
  have hrun : runPseudo (.convertAs (W.setWidth 32) (H.setWidth 32)) s = hostAccess (.regRead Reg.status.offset) u := by
    rw [← cmd_wait (s := { s with width := W, height := H, pv := false }) hidle .convert h, ← hdims]
    rfl
  rw [runCommand, hrun]
  exact ⟨_, Prod.ext (errcodeField_status _) rfl, rfl⟩

theorem pixelAt_converted {s : State} {i j : Nat} (hi : i < frameH s) (hj : j < frameW s) :
    pixelAt (converted s) i j = convertedPixel s i j := by
  have hplace : i * frameW s + j < frameW s * frameH s := rowMajor_lt hi hj
  obtain ⟨hred, hgreen, hblue⟩ := convertedByte_pixel s i hj
  have hwidth : frameW (converted s) = frameW s := rfl
  rw [pixelAt, hwidth, peek_converted_of_lt (by omega), peek_converted_of_lt (by omega),
    peek_converted_of_lt (by omega), hred, hgreen, hblue]

/-- CONVERT of a frame that stands in FRAME gives the pixels computed from its bytes (R84, R141). -/
theorem convertedPixel_eq_framePixel {s : State} {frame : List Byte} (hW : frameW s % 2 = 0) (hH : frameH s % 2 = 0)
    (hframe : ∀ a, a < 3 * (frameW s * frameH s) / 2 → peek s .frame a = frame.getD a 0) {i j : Nat}
    (hi : i < frameH s) (hj : j < frameW s) :
    convertedPixel s i j = framePixel s.params.cscGBinary64 frame (frameW s) (frameH s) i j := by
  obtain ⟨hy, hu, hv⟩ := sampleAddrs_lt hW hH hi hj
  rw [convertedPixel, samples, hframe _ hy, hframe _ hu, hframe _ hv]
  rfl

/-- The symbols of the grid, too: each cell's window lies inside the frame (R182, R183). -/
theorem cellSymbol_converted {s : State} {frame : List Byte} (hW : frameW s % 2 = 0) (hH : frameH s % 2 = 0)
    (hframe : ∀ a, a < 3 * (frameW s * frameH s) / 2 → peek s .frame a = frame.getD a 0) {q : Nat}
    (hq : q < frameW s / 4 * (frameH s / 4)) :
    cellSymbol (converted s) q = frameSymbol s.params.cscGBinary64 frame (frameW s) (frameH s) q := by
  obtain ⟨hrow, hcol⟩ := lt_mul_iff_div_lt_and_mod_lt.mp hq
  have hwindow : window (converted s) (4 * (q / (frameW s / 4))) (4 * (q % (frameW s / 4))) =
      (List.range 16).map fun k => framePixel s.params.cscGBinary64 frame (frameW s) (frameH s)
        (4 * (q / (frameW s / 4)) + k / 4) (4 * (q % (frameW s / 4)) + k % 4) := by
    refine List.map_congr_left fun k hk => ?_
    have hk := List.mem_range.mp hk
    have hi := cell_fits_iff.mpr hrow
    have hj := cell_fits_iff.mpr hcol
    rw [pixelAt_converted (by omega) (by omega), convertedPixel_eq_framePixel hW hH hframe (by omega) (by omega)]
  rw [frameSymbol, ← hwindow]
  rfl

/-! ### The result -/

theorem decodeFrame_fst (frame : List Byte) (W H : Dim) (s : State) : (decodeFrame frame W H s).1 =
    resultOf (((runOr HostResult.hardwareError (.convertAs (W.setWidth 32) (H.setWidth 32))).andThen
      fun _ => readFields) (loadFrame frame s)).1 := by
  rw [decodeFrame]
  split
  next r t hanswer =>
    rw [hanswer]
    cases r <;> rfl

section loaded

variable {s : State} (hidle : s.busy = false) (hlegal : s.params.Legal) (frame : List Byte) {W H : Dim}
include hidle hlegal

theorem loadFrame_busy : (loadFrame frame s).busy = false := by
  obtain ⟨m, hload, -⟩ := loadFrame_idle hidle hlegal frame
  rw [hload]
  exact hidle

theorem loadFrame_params : (loadFrame frame s).params = s.params := by
  obtain ⟨m, hload, -⟩ := loadFrame_idle hidle hlegal frame
  rw [hload]

theorem loadFrame_peek {a : Nat} (ha : a < frame.length) (hdepth : a < s.params.frameDepth) :
    peek (loadFrame frame s) .frame a = frame.getD a 0 := by
  obtain ⟨m, hload, hbytes⟩ := loadFrame_idle hidle hlegal frame
  rw [hload]
  exact hbytes a ha hdepth

/-- R237: illegal dimensions end the sequence with CONVERT's ERRCODE. -/
theorem decodeFrame_of_not_legalDims (hdims : ¬ LegalDims s.params W.toNat H.toNat) :
    (decodeFrame frame W H s).1 = .hardwareError 2 := by
  rw [← loadFrame_params hidle hlegal frame] at hdims
  have hexec : exec .convert (convertIssued W H (loadFrame frame s)) = .next _ := if_neg hdims
  obtain ⟨t, ht, -⟩ := runCommand_convertAs (loadFrame_busy hidle hlegal frame) W H hexec
  rw [decodeFrame_fst, andThen_error (runOr_error (e := 2) (by decide) ht)]
  rfl

/-- With legal ones the five steps read the symbols of the converted frame, whatever the buffer's length. -/
theorem decodeFrame_of_legalDims (hdims : LegalDims s.params W.toNat H.toNat) :
    (decodeFrame frame W H s).1 = protocolResult (W.toNat / 4 * (H.toNat / 4))
      (cellSymbol (converted (convertIssued W H (loadFrame frame s)))) := by
  have hloaded := loadFrame_busy hidle hlegal frame
  rw [← loadFrame_params hidle hlegal frame] at hdims hlegal
  obtain ⟨t, ht, hreplies⟩ := runCommand_convertAs hloaded W H
    (exec_convert_of_legalDims (s := convertIssued W H (loadFrame frame s)) hdims)
  have hshown := (shown_pictureOf (s := converted (convertIssued W H (loadFrame frame s))) rfl rfl hlegal).of_replies
    t.replies
  rw [← hreplies] at hshown
  have hresult := resultOf_readFields hshown
  simp only [pictureOf] at hresult
  rw [decodeFrame_fst, andThen_ok (runOr_ok ht), hresult]
  rfl

/-- R181, R182, R235: the five steps read the symbols of the frame's cells. -/
theorem decodeFrame_eq_protocolResult (hdims : LegalDims s.params W.toNat H.toNat)
    (hlength : frame.length = 3 * (W.toNat * H.toNat) / 2) :
    (decodeFrame frame W H s).1 = protocolResult (W.toNat / 4 * (H.toNat / 4))
      (frameSymbol s.params.cscGBinary64 frame W.toNat H.toNat) := by
  rw [decodeFrame_of_legalDims hidle hlegal frame hdims]
  have ⟨_, _, hW, hH, _, hdepth⟩ := hdims
  have hframe (a : Nat) (ha : a < 3 * (W.toNat * H.toNat) / 2) :
      peek (convertIssued W H (loadFrame frame s)) .frame a = frame.getD a 0 :=
    loadFrame_peek hidle hlegal frame (hlength ▸ ha) (ha.trans_le hdepth)
  rw [← loadFrame_params hidle hlegal frame]
  exact protocolResult_congr _ _ _ fun q hq =>
    cellSymbol_converted (s := convertIssued W H (loadFrame frame s)) hW hH hframe hq

end loaded

/-- Settles O54: loading and converting put the frame's symbol stream where the five steps read it. -/
theorem decodeFollowsTheFiveSteps : Obligations.DecodeFollowsTheFiveSteps :=
  fun frame _ _ _ hlegal hidle hdims hlength => decodeFrame_eq_protocolResult hidle hlegal frame hdims hlength

/-- Settles O56: dimensions are legal or not by the constants alone, and the five steps read the frame alone. -/
theorem decodeIsAPureFunction : Obligations.DecodeIsAPureFunction := by
  intro frame W H s t hlegal hparams hsidle htidle hlength
  have htlegal : t.params.Legal := hparams ▸ hlegal
  by_cases hdims : LegalDims s.params W.toNat H.toNat
  · rw [decodeFrame_eq_protocolResult hsidle hlegal frame hdims hlength,
      decodeFrame_eq_protocolResult htidle htlegal frame (hparams ▸ hdims) hlength, hparams]
  · rw [decodeFrame_of_not_legalDims hsidle hlegal frame hdims,
      decodeFrame_of_not_legalDims htidle htlegal frame (hparams ▸ hdims)]

/-- Settles O58: CONVERT rejects the dimensions, or the first SCAN ends past the last cell. -/
theorem framesTooSmallForTheMagic : Obligations.FramesTooSmallForTheMagic := by
  intro frame W H s hlegal hidle
  refine ⟨decodeFrame_of_not_legalDims hidle hlegal frame, fun hdims hcells => ?_⟩
  rw [decodeFrame_of_legalDims hidle hlegal frame hdims]
  exact if_pos hcells

end Sys2Proof.Proofs
end

section
/-! What the protocol's table says of a frame with room for the header (R243) and of a changed body (R246). -/

namespace Sys2Proof.Proofs

open Sys2Proof.Machine Sys2Proof.Laws Sys2Proof.Claims

/-! ### Which results the table can give -/

theorem ite_result_ne {c : Prop} [Decidable c] {a b r : HostResult} (ha : a ≠ r) (hb : b ≠ r) :
    (if c then a else b) ≠ r := by
  split <;> assumption

/-- R243: only a field of the header can be missing from the grid. -/
theorem protocolResult_ne_outOfBounds {cells : Nat} (hcells : 48 ≤ cells) (x : Nat → Sym) :
    protocolResult cells x ≠ .outOfBounds := by
  rw [protocolResult, if_neg (by omega)]
  refine ite_result_ne (by simp) ?_
  rw [if_neg (by omega)]
  refine ite_result_ne (by simp) ?_
  rw [if_neg (by omega)]
  exact ite_result_ne (by simp) (ite_result_ne (by simp) (ite_result_ne (by simp) (by simp)))

/-- The hardware errors of R236 come from CONVERT and PACKB, which the table does not list. -/
theorem protocolResult_ne_hardwareError (cells : Nat) (x : Nat → Sym) (e : BitVec 4) :
    protocolResult cells x ≠ .hardwareError e := by
  rw [protocolResult]
  iterate 8 refine ite_result_ne (by simp) ?_
  simp

/-- Settles O57: the table has no hardware error, and OutOfBounds only where the header does not fit. -/
theorem roomForTheHeaderIsNeverOutOfBounds : Obligations.RoomForTheHeaderIsNeverOutOfBounds := by
  intro frame W H s hlegal hidle hdims hcells
  rw [decodeFrame_of_legalDims hidle hlegal frame hdims]
  exact ⟨protocolResult_ne_outOfBounds ((by decide : 48 ≤ 64).trans hcells) _, protocolResult_ne_hardwareError _ _⟩

/-! ### A header that passes -/

/-- Steps 1 to 3 pass, and the grid holds the body. -/
structure HeaderPasses (cells : Nat) (x : Nat → Sym) : Prop where
  room : 48 ≤ cells
  magic : streamBytes x 0 4 = magicBytes
  version : 0 < streamInt x 16
  fits : streamInt x 32 ≤ ((cells : Int) - 64) / 4
  length : 0 ≤ streamInt x 32

theorem protocolResult_of_headerPasses {cells : Nat} {x : Nat → Sym} (h : HeaderPasses cells x) :
    protocolResult cells x =
      if s32 (byteSum (streamBytes x 64 (streamInt x 32).toNat)) ≠ streamInt x 48 then .checksumMismatch
      else .ok (streamBytes x 64 (streamInt x 32).toNat) := by
  have hroom := h.room
  rw [protocolResult, if_neg (by omega), ← magicBytes, if_neg (not_not.mpr h.magic), if_neg (by omega),
    if_neg h.version.not_ge, if_neg h.room.not_gt, if_neg h.fits.not_gt, if_neg h.length.not_gt]
  rfl

theorem headerPasses_of_ok {cells : Nat} {x : Nat → Sym} {body : List Byte} (h : protocolResult cells x = .ok body) :
    HeaderPasses cells x := by
  rw [protocolResult] at h
  split_ifs at h with h16 hmagic h32 hversion h48 hfits hlength
  exact ⟨not_lt.mp h48, not_not.mp hmagic, not_le.mp hversion, not_lt.mp hfits, not_lt.mp hlength⟩

theorem streamInt_congr {x y : Nat → Sym} {a : Nat} (ha : a ≤ 48) (hxy : ∀ q, q < 64 → y q = x q) :
    streamInt y a = streamInt x a := by
  rw [streamInt, streamInt]
  refine congrArg (fun n => s32 (u32 n)) (Finset.sum_congr rfl fun k hk => ?_)
  have hk := Finset.mem_range.mp hk
  rw [hxy _ (by omega)]

theorem streamBytes_congr {x y : Nat → Sym} {a n : Nat} (hn : a + 4 * n ≤ 64) (hxy : ∀ q, q < 64 → y q = x q) :
    streamBytes y a n = streamBytes x a n := by
  refine List.map_congr_left fun m hm => ?_
  have hm := List.mem_range.mp hm
  rw [streamByte, streamByte, hxy _ (by omega), hxy _ (by omega), hxy _ (by omega), hxy _ (by omega)]

/-- The header's symbols alone decide whether it passes. -/
theorem HeaderPasses.congr {cells : Nat} {x y : Nat → Sym} (h : HeaderPasses cells x) (hxy : ∀ q, q < 64 → y q = x q) :
    HeaderPasses cells y := by
  obtain ⟨hroom, hmagic, hversion, hfits, hlength⟩ := h
  rw [← streamBytes_congr (by decide) hxy] at hmagic
  rw [← streamInt_congr (by decide) hxy] at hversion hfits hlength
  exact ⟨hroom, hmagic, hversion, hfits, hlength⟩

/-! ### A changed body -/

/-- Changing one byte changes the sum: by less than its modulus 2^32. -/
theorem byteSum_ne_of_one_changed {x y : Nat → Sym} {a n m : Nat} (hm : m < n)
    (hsame : ∀ j, j < n → j ≠ m → streamByte y (a + 4 * j) = streamByte x (a + 4 * j))
    (hdiff : streamByte y (a + 4 * m) ≠ streamByte x (a + 4 * m)) :
    byteSum (streamBytes y a n) ≠ byteSum (streamBytes x a n) := by
  have hmem := Finset.mem_range.mpr hm
  have hrest : ∑ j ∈ (Finset.range n).erase m, (streamByte y (a + 4 * j)).toNat =
      ∑ j ∈ (Finset.range n).erase m, (streamByte x (a + 4 * j)).toNat :=
    Finset.sum_congr rfl fun j hj => by
      rw [hsame j (Finset.mem_range.mp (Finset.mem_of_mem_erase hj)) (Finset.ne_of_mem_erase hj)]
  rw [byteSum_streamBytes, byteSum_streamBytes, sumUpTo_eq_sum_range, sumUpTo_eq_sum_range,
    ← Finset.add_sum_erase _ _ hmem, ← Finset.add_sum_erase _ _ hmem, hrest]
  rw [← BitVec.toNat_inj.ne] at hdiff ⊢
  rw [BitVec.toNat_ofNat, BitVec.toNat_ofNat]
  have := (streamByte x (a + 4 * m)).isLt
  have := (streamByte y (a + 4 * m)).isLt
  omega

/-- R246: with the header's symbols intact, one changed body byte fails the CHECKSUM step. -/
theorem protocolResult_of_one_changed {cells : Nat} {x y : Nat → Sym} {body : List Byte} {m : Nat}
    (hok : protocolResult cells x = .ok body) (hm : m < body.length) (hheader : ∀ q, q < 64 → y q = x q)
    (hsame : ∀ j, j < body.length → j ≠ m → streamByte y (64 + 4 * j) = streamByte x (64 + 4 * j))
    (hdiff : streamByte y (64 + 4 * m) ≠ streamByte x (64 + 4 * m)) : protocolResult cells y = .checksumMismatch := by
  have hpasses := headerPasses_of_ok hok
  rw [protocolResult_of_headerPasses hpasses] at hok
  split_ifs at hok with hsum
  obtain rfl := HostResult.ok.inj hok
  rw [length_streamBytes] at hm hsame
  have hchanged := byteSum_ne_of_one_changed hm hsame hdiff
  rw [protocolResult_of_headerPasses (hpasses.congr hheader), streamInt_congr (a := 32) (by decide) hheader,
    streamInt_congr (a := 48) le_rfl hheader, if_pos]
  rw [← not_not.mp hsum]
  exact mt BitVec.toInt_inj.mp hchanged

/-- Settles O55: the header passes as before, and only the body's sum differs. -/
theorem oneChangedBodyByteIsDetected : Obligations.OneChangedBodyByteIsDetected := by
  intro frame frame' W H s body m hlegal hidle hdims hlength hlength' x x' hok hm hheader hsame hdiff
  rw [decodeFrame_eq_protocolResult hidle hlegal frame hdims hlength,
    decodeFrame_eq_protocolResult hidle hlegal frame' hdims hlength']
  exact ⟨hok, protocolResult_of_one_changed hok hm hheader hsame hdiff⟩

end Sys2Proof.Proofs
end

section
/-! Completions and errors (R267, R274, R276) and the interrupt output (R272): how a completion leaves the status, and
when `irq` is high. -/

namespace Sys2Proof.Proofs

open Sys2Proof.Machine Sys2Proof.Laws Sys2Proof.Claims

/-! ### The two ways to complete -/

/-- A command takes an error on the state before it, or succeeds with writes that leave ERR alone. -/
theorem exec_completes (i : Instr) (s : State) :
    (∃ e, e ≠ .none ∧ exec i s = .next (takeError e s)) ∨
    (∃ written, written.err = s.err ∧ exec i s = .next (succeed written)) := by
  obtain herror | ⟨-, he⟩ | ⟨-, -, he⟩ | ⟨-, he⟩ | ⟨-, -, -, he⟩ | ⟨o, -, -, he⟩ | ⟨o, -, he⟩ := exec_cases i s
  · exact .inl herror
  all_goals exact .inr ⟨_, by rfl, he⟩

/-- A reserved word completes as a failing command does, with BAD_COMMAND (R223). -/
theorem engineStep_completes {s : State} (hbusy : s.busy = true) :
    (∃ e, e ≠ .none ∧ engineStep s = .next (takeError e s)) ∨
    (∃ written, written.err = s.err ∧ engineStep s = .next (succeed written)) := by
  obtain ⟨hidle, -⟩ | ⟨-, -, he⟩ | ⟨-, i, -, he⟩ := engineStep_cases s
  · cases hbusy.symm.trans hidle
  · exact .inl ⟨.badCommand, by decide, he⟩
  · exact he ▸ exec_completes i s

theorem err_of_engineTurn {s u : State} (h : EngineTurn s u) : u.err = s.err := by
  obtain ⟨-, rfl⟩ | ⟨rest, -, rfl⟩ := h <;> rfl

theorem ie_of_engineTurn {s u : State} (h : EngineTurn s u) : u.ie = s.ie := by
  obtain ⟨-, rfl⟩ | ⟨rest, -, rfl⟩ := h <;> rfl

/-- Settles O7: the code shown tells the two ways to complete apart, a taken error's never being 0. -/
theorem completionsArePrecise : Obligations.CompletionsArePrecise := by
  intro s u hbusy hturn
  rw [step_of_engineTurn hturn, ← err_of_engineTurn hturn]
  obtain ⟨e, hcode, he⟩ | ⟨written, herr, he⟩ := engineStep_completes ((busy_of_engineTurn hturn).trans hbusy)
  · exact ⟨takeError e u, he, rfl, rfl, fun _ => rfl, fun hnone => absurd hnone hcode⟩
  · exact ⟨succeed written, he, rfl, rfl, fun hsome => absurd rfl hsome, fun _ => herr⟩

/-- Settles O11: each ground breaks a condition of `LegalDims`. -/
theorem convertRejectsIllegalDimensions : Obligations.ConvertRejectsIllegalDimensions := by
  refine ⟨rfl, ?_⟩
  intro s W H hillegal
  obtain ⟨hlegal, -⟩ | ⟨-, he⟩ := execConvert_cases s
  · obtain ⟨hW, hH, hWeven, hHeven, hpixels, hbytes⟩ : LegalDims s.params W H := hlegal
    omega
  · exact he

/-- Settles O49: every event has a next state, the engine's turn by `engineStep_next`. -/
theorem everyStateStepsOn : Obligations.EveryStateStepsOn := by
  intro s
  obtain ⟨-, he⟩ | ⟨op, rest, -, he⟩ | ⟨rest, -, he⟩ | ⟨rest, -, he⟩ := step_cases s <;>
    rw [StepsOn, he]
  · exact engineStep_next s
  · exact ⟨_, rfl⟩
  · exact engineStep_next _
  · exact ⟨_, rfl⟩

/-! ### The interrupt output -/

theorem irq_of_done {s : State} (hdone : s.done = true) : irq s = s.ie := by
  rw [irq, hdone, Bool.and_true]

theorem irq_of_not_done {s : State} (hdone : s.done = false) : irq s = false := by
  rw [irq, hdone, Bool.and_false]

theorem irq_of_not_enabled {s : State} (hie : s.ie = false) : irq s = false := by
  rw [irq, hie, Bool.false_and]

theorem softReset_ie (s : State) : (softReset s).ie = false := by
  obtain ⟨-, he⟩ | ⟨sp, -, he⟩ := softReset_cases s <;> rw [he] <;> rfl

theorem irq_softReset (s : State) : irq (softReset s) = false := irq_of_not_enabled (softReset_ie s)

theorem writeCtrl_of_reset {v : Word} (hv : v.getLsbD 0 = true) (s : State) : writeCtrl v s = softReset s := if_pos hv

/-- A CTRL write with IE clear takes IE away, whether or not it resets. -/
theorem irq_writeCtrl_of_ie_clear {v : Word} (hv : v.getLsbD 1 = false) (s : State) : irq (writeCtrl v s) = false := by
  cases hreset : v.getLsbD 0 with
  | true => rw [writeCtrl_of_reset hreset, irq_softReset]
  | false =>
    rw [writeCtrl_of_not_reset hreset]
    exact irq_of_not_enabled hv

/-- A completion sets DONE and keeps IE. -/
theorem irq_of_completion {s u t : State} (hbusy : s.busy = true) (hturn : EngineTurn s u) (ht : step s = .next t) :
    irq t = s.ie := by
  obtain ⟨t', ht', -, hdone, -⟩ := completionsArePrecise s u hbusy hturn
  obtain rfl := Host.Outcome.next.inj (ht.symm.trans ht')
  obtain ⟨-, -, -, hie, -⟩ := engineStep_keeps (step_of_engineTurn hturn ▸ ht)
  rw [irq_of_done hdone, hie, ie_of_engineTurn hturn]

/-- Settles O43: a completion sets DONE; each write and reset named clears DONE or IE. -/
theorem interruptFollowsDoneAndEnable : Obligations.InterruptFollowsDoneAndEnable := by
  refine ⟨fun s => rfl, fun s u t => irq_of_completion, fun s v hv => ?status, fun s v hidle => ?cmd,
    fun s v hv => irq_writeCtrl_of_ie_clear hv s, fun s v hv => ?softReset, fun s => irq_of_not_enabled rfl⟩
  case status =>
    have hdone : (clearStatus v s).done = false := by rw [clearStatus_done, hv, Bool.not_true, Bool.and_false]
    exact irq_of_not_done hdone
  case cmd =>
    have he : hostAccess (.regWrite 0x18 v) s = issue v s := writeCmd_idle hidle v
    exact he ▸ irq_of_not_done (issue_done ..)
  case softReset =>
    have he : hostAccess (.regWrite 0x00 v) s = softReset s := writeCtrl_of_reset hv s
    exact he ▸ irq_softReset s

end Sys2Proof.Proofs
end

section
/-! Resets (R290, R292, R293), the end of every running command (R304) and the race of a write with a completion (P10). -/

namespace Sys2Proof.Proofs

open Sys2Proof.Machine Sys2Proof.Laws Sys2Proof.Claims

/-! ### Registers -/

theorem registersReset_reset : RegistersReset State.reset := registersReset_resetRegisters State.reset

theorem registersReset_powerOnReset (s : State) : RegistersReset (powerOnReset s) :=
  registersReset_resetRegisters { s with
    frame := Mem.unspecified s.draws, pix := Mem.unspecified s.draws
    sym := Mem.unspecified s.draws, out := Mem.unspecified s.draws, draws := s.draws + 1 }

theorem statusWord_of_registersReset {t : State} (h : RegistersReset t) : statusWord t = 0 := by
  obtain ⟨-, hbusy, hdone, herr, hlost, hpv, hcode, -⟩ := h
  rw [statusWord, hbusy, hdone, herr, hlost, hpv, hcode]
  decide

theorem softReset_events (s : State) : (softReset s).events = s.events := by
  obtain ⟨-, he⟩ | ⟨sp, -, he⟩ := softReset_cases s <;> simp [he]

theorem softReset_replies (s : State) : (softReset s).replies = s.replies := by
  obtain ⟨-, he⟩ | ⟨sp, -, he⟩ := softReset_cases s <;> simp [he]

theorem step_powerOn {s : State} {rest : List Event} (hev : s.events = .powerOn :: rest) :
    step s = .next (powerOnReset { s with events := rest }) := by
  simp only [step, stepEvents, hev, applyEvent]

/-- Settles O44: each reset ends in `resetRegisters`, which leaves the parameters and the queues alone. -/
theorem resetsRestoreEveryRegister : Obligations.ResetsRestoreEveryRegister := by
  refine ⟨registersReset_reset, fun s v hv => ?soft, fun s rest hev => ?powerOn⟩
  case soft =>
    have hreset := registersReset_softReset s
    exact ⟨softReset s, writeCtrl_of_reset hv s, hreset, ctrlWord_of_registersReset hreset,
      statusWord_of_registersReset hreset, softReset_params s, softReset_events s, softReset_replies s⟩
  case powerOn =>
    have hreset := registersReset_powerOnReset { s with events := rest }
    exact ⟨_, step_powerOn hev, hreset, ctrlWord_of_registersReset hreset, statusWord_of_registersReset hreset,
      rfl, rfl, rfl⟩

/-! ### Memories -/

/-- A wholly unspecified space shows the values of its draw, as narrow as the space holds them (R52, R292). -/
theorem peek_of_mem_unspecified {t : State} {sp : Space} {k : Nat} (h : t.mem sp = Mem.unspecified k) (a : Nat) :
    peek t sp a = narrow sp (Config.freeByte k sp a) := by
  rw [peek, h]
  rfl

theorem powerOnReset_mem (s : State) (sp : Space) : (powerOnReset s).mem sp = Mem.unspecified s.draws := by
  cases sp <;> rfl

/-- A soft reset makes the destination of the command it aborts unspecified (R293). -/
theorem softReset_mem_of_aborted {s : State} {sp : Space} (h : busySpace s = some sp) :
    (softReset s).mem sp = Mem.unspecified s.draws := by
  obtain ⟨hnone, -⟩ | ⟨dest, hdest, he⟩ := softReset_cases s
  · cases h.symm.trans hnone
  · obtain rfl : sp = dest := Option.some.inj (h.symm.trans hdest)
    rw [he, mem_resetRegisters, mem_forget]

/-- With `c` the condition that `sp` is the aborted command's destination: forgotten if it holds, else kept. -/
theorem softReset_mem_ite {s : State} {sp : Space} {c P : Prop} [Decidable c] (hc : busySpace s = some sp ↔ c)
    (hforgotten : (softReset s).mem sp = Mem.unspecified s.draws → P) :
    if c then P else (softReset s).mem sp = s.mem sp := by
  split
  · exact hforgotten (softReset_mem_of_aborted (hc.mpr ‹c›))
  · exact softReset_mem fun h => absurd (hc.mp h) ‹¬c›

/-- Settles O45: a soft reset forgets the running command's destination, which is never FRAME; a power-on reset
forgets every space. -/
theorem softResetKeepsOrForgetsMemories : Obligations.SoftResetKeepsOrForgetsMemories := by
  refine ⟨fun s v hv => ⟨softReset s, writeCtrl_of_reset hv s, softReset_mem (sp := .frame) ?frame,
    fun hidle => ?idle, fun hbusy => ?busy⟩, fun s rest hev => ?powerOn⟩
  case frame => simp [busySpace_eq_some_iff, writtenSpace_eq_some_iff]
  case idle =>
    have hkept (sp : Space) : (softReset s).mem sp = s.mem sp := softReset_mem (by simp [busySpace, hidle])
    exact ⟨hkept .pix, hkept .sym, hkept .out⟩
  case busy =>
    refine ⟨softReset_mem_ite (sp := .pix) ?pix peek_of_mem_unspecified,
      softReset_mem_ite (sp := .sym) ?sym fun h a => ?bits,
      softReset_mem_ite (sp := .out) ?out peek_of_mem_unspecified⟩
    case bits => rw [peek_of_mem_unspecified h, toNat_narrow_sym]
    case pix | sym | out => simp [busySpace_eq_some_iff, writtenSpace_eq_some_iff, hbusy]
  case powerOn =>
    have hpeek (sp : Space) := peek_of_mem_unspecified (powerOnReset_mem { s with events := rest } sp)
    refine ⟨_, step_powerOn hev, Nat.lt_succ_self _, fun a => ⟨hpeek .frame a, hpeek .pix a, ?_, hpeek .out a⟩⟩
    rw [hpeek .sym a, toNat_narrow_sym]

/-! ### Completion -/

/-- A run goes on by the step from its last state. -/
theorem run_concat {k : Nat} {s t u : State} (hrun : Sys2Proof.core.run k s = .next t) (hstep : step t = .next u) :
    Sys2Proof.core.run (k + 1) s = .next u := by
  induction k generalizing s with
  | zero =>
    cases hrun
    exact run_succ hstep 0
  | succ k ih =>
    obtain ⟨s', hs'⟩ := everyStateStepsOn s
    rw [run_succ hs'] at hrun ⊢
    exact ih hrun

/-- Settles O51: the run takes every queued event; with the queue empty the next step is the engine's turn, which
leaves the block idle whatever the events did. -/
theorem runningCommandEndsWithinTheQueue : Obligations.RunningCommandEndsWithinTheQueue := by
  intro s _
  obtain ⟨t, hrun, hempty, -⟩ := run_events (List.append_nil s.events).symm rfl
  obtain ⟨u, hturn⟩ := engineStep_next t
  have hstep : step t = .next u := (step_of_engineTurn (.inl ⟨hempty, rfl⟩)).trans hturn
  obtain ⟨-, -, -, -, -, hidle⟩ := engineStep_keeps hturn
  exact ⟨s.events.length + 1, u, le_rfl, run_concat hrun hstep, hidle⟩

/-- Settles O52: the write after the completion sets WIDTH; the write before it leaves WIDTH and sets LOST. -/
theorem bothOrdersOfTheRaceAreRuns : Obligations.BothOrdersOfTheRaceAreRuns :=
  ⟨⟨{ succeed (issue 0 State.reset) with width := 8, pv := false }, rfl, rfl, rfl⟩,
    ⟨succeed (loseWrite (issue 0 State.reset)), rfl, rfl, rfl⟩⟩

end Sys2Proof.Proofs
end
